-- ==== Sys2Proof/Word.lean ====
section
/-! DEFINITION. The word types of the machine (spec/00_scope.md R6, R8): every value is unsigned. -/

namespace Sys2Proof

/-- One byte: a memory byte, a general register, a timer, an immediate `kk` (R6: REG_W, TIMER_W). -/
abbrev Byte := BitVec 8

/-- Sixteen bits: an instruction word, `pc`, `I`, one stack entry (R6: PC_W, I_W, STACK_W). -/
abbrev Word := BitVec 16

/-- The 12-bit address field `nnn` of an instruction word (30_encoding.md R82). -/
abbrev Addr12 := BitVec 12

/-- Four bits of an instruction word (R8, R81). -/
abbrev Nibble := BitVec 4

/-- The number of one of the 16 general registers (10_state.md R21). -/
abbrev RegIdx := Fin 16

/-- The number of one of the 16 keys (10_state.md R32). -/
abbrev KeyIdx := Fin 16

/-- A row of the display, 0 at the top (10_state.md R31). -/
abbrev DispRow := Fin 32

/-- A column of the display, 0 at the left (10_state.md R31). -/
abbrev DispCol := Fin 64

/-- `VF` is `V[15]` (10_state.md R21). -/
abbrev vf : RegIdx := 15

end Sys2Proof
end

