-- ==== Sys2Proof/Config.lean ====
section
/-! DEFINITION. The fixed sizes of the hardware (spec/00_scope.md R6) and its two open parameters, GLYPHS and
RAND (R7), which are free values: constants without a body. -/

namespace Sys2Proof.Config

/-- MEM_SIZE: 4096 bytes (R6). -/
@[simp] abbrev memSize : Nat := 4096

/-- The last address of memory, 0xFFF (20_memory.md R59). -/
@[simp] abbrev lastAddress : Nat := 0xFFF

/-- STACK_DEPTH: 16 entries (R6). -/
@[simp] abbrev stackDepth : Nat := 16

/-- PROG_BASE: the load address of a program and the reset value of `pc` (R6). -/
@[simp] abbrev progBase : Nat := 0x200

/-- The most bytes `load` copies, `4096 - 0x200` (70_reset_and_hazards.md R274). -/
@[simp] abbrev progSize : Nat := 3584

/-- GLYPH_BYTES: bytes per glyph (R6). -/
@[simp] abbrev glyphBytes : Nat := 5

/-- The 16 glyphs of 5 bytes occupy addresses 0x000 to 0x04F (20_memory.md R59). -/
@[simp] abbrev glyphArea : Nat := 80

/-- INSN_BYTES: every instruction is two bytes (R6, 30_encoding.md R80). -/
@[simp] abbrev insnBytes : Nat := 2

/-- GLYPHS (R7): byte `a` of the glyph table, `a` from 0 to 79. A free value: the spec gives the place, the
size and the order of the glyphs and none of their bytes (92_eei_decisions.md D2; assumption log 1). -/
opaque glyph : Nat → Byte

/-- RAND (R7, 10_state.md R34): the byte the environment supplies at the `k`-th draw. A free value, under no
law (92_eei_decisions.md D16; assumption log 2). -/
opaque randomByte : Nat → Byte

/-- The glyph table CHIP-8 interpreters conventionally use (70_reset_and_hazards.md R272, marked there as
general knowledge). PRESUMED (assumption log 1): no meaning uses it. A claim that needs these bytes takes
`GlyphsAreConventional` as a premise. -/
def conventionalGlyphs : List Byte :=
  [0xF0, 0x90, 0x90, 0x90, 0xF0] ++ [0x20, 0x60, 0x20, 0x20, 0x70] ++
  [0xF0, 0x10, 0xF0, 0x80, 0xF0] ++ [0xF0, 0x10, 0xF0, 0x10, 0xF0] ++
  [0x90, 0x90, 0xF0, 0x10, 0x10] ++ [0xF0, 0x80, 0xF0, 0x10, 0xF0] ++
  [0xF0, 0x80, 0xF0, 0x90, 0xF0] ++ [0xF0, 0x10, 0x20, 0x40, 0x40] ++
  [0xF0, 0x90, 0xF0, 0x90, 0xF0] ++ [0xF0, 0x90, 0xF0, 0x10, 0xF0] ++
  [0xF0, 0x90, 0xF0, 0x90, 0x90] ++ [0xE0, 0x90, 0xE0, 0x90, 0xE0] ++
  [0xF0, 0x80, 0x80, 0x80, 0xF0] ++ [0xE0, 0x90, 0x90, 0x90, 0xE0] ++
  [0xF0, 0x80, 0xF0, 0x80, 0xF0] ++ [0xF0, 0x80, 0xF0, 0x80, 0x80]

/-- The premise that GLYPHS is the conventional table (R272). -/
def GlyphsAreConventional : Prop := ∀ a < glyphArea, conventionalGlyphs[a]? = some (glyph a)

end Sys2Proof.Config
end

