-- ==== Sys2Proof/Machine/State.lean ====
section
/-! DEFINITION. The state of the machine (spec/10_state.md R20 to R36), its faults (60_exceptions.md R230), and
the state after reset (R36). All plain data. -/

namespace Sys2Proof.Machine

/-- Main memory `MEM` (R30): the (address, byte) pairs that differ from the reset contents, addresses strictly
rising. `Memory.read` (Ops.lean) gives every other address its reset byte. -/
structure Memory where
  cells : List Host.Cell
  deriving DecidableEq, Repr

/-- The whole state of the core (R20), and the model's own counter `randDraws`. -/
structure State where
  /-- Main memory `MEM` (R30). -/
  mem : Memory
  /-- General registers `V[0..15]`; `V[15]` is `VF` (R21, R22). -/
  v : Vector Byte 16
  /-- Address register `I` (R24). -/
  i : Word
  /-- Delay timer `DT` (R27). -/
  dt : Byte
  /-- Sound timer `ST` (R28). -/
  st : Byte
  /-- Program counter `pc` (R23). -/
  pc : Word
  /-- Call/return buffer `STACK` (R25). -/
  stack : Vector Word 16
  /-- Stack pointer `SP`: how many entries are live (R26). -/
  sp : Byte
  /-- Keypad latch `KEY`, true for down (R32). -/
  key : Vector Bool 16
  /-- Display `DISP[row][col]`, true for lit (R31). -/
  disp : Vector (Vector Bool 64) 32
  /-- The model's own: how many random bytes have been drawn (R34; assumption log 2). -/
  randDraws : Nat
  deriving DecidableEq, Repr

/-- The faults of a step (60_exceptions.md R230, codes 1 to 5), each with the value it records. A fault changes
no state (R236). -/
inductive Fault where
  /-- Raised by `step` on an invalid word, with its nibbles (R231). Safe: the document calls it fatal for the run. -/
  | decodeFailure (n0 n1 n2 n3 : Nibble)
  /-- Raised by CallSubroutine when SP is 16 (R232). Safe: the document asks for an explicit error. -/
  | stackOverflow
  /-- Raised by ReturnSubroutine when SP is 0 (R233). Safe: the document asks for an explicit error. -/
  | stackUnderflow
  /-- Raised by `step` when `pc` is above 0xFFE (R234, D3; assumption log 6). Safe: the machine stops. -/
  | fetchOutOfRange (pc : Word)
  /-- Raised by Draw, StoreBCD, StoreRegisterBlock and LoadRegisterBlock when their highest address is above
  0xFFF; records that address (R235, D4; assumption log 7). Safe: the machine stops. -/
  | memoryOutOfRange (address : Nat)
  deriving DecidableEq, Repr

/-- Why a step has no meaning in the model. -/
inductive Refusal where
  /-- An instruction not modelled yet. Raised by no arm: every instruction has its meaning. Safe. -/
  | notModelled (mnemonic : String)
  /-- Raised by CallSubroutine and ReturnSubroutine when SP is above 16, a value the spec calls unreachable
  (R26) and for which no stack entry exists. Safe: the machine stops (assumption log 4). -/
  | stackPointerOutOfRange (sp : Byte)
  deriving DecidableEq, Repr

/-- The error of the host operations `key_down` and `key_up` (R237, code 6): never the outcome of a step. -/
inductive KeyError where
  | outOfRangeKeyIndex (index : Nat)
  deriving DecidableEq, Repr

/-- The state after reset (R36, R270): `pc` is 0x200, memory holds its reset contents, and everything else is
zero, false or empty by the spec's decision D1 (assumption log 3). -/
def State.reset : State where
  mem := ⟨[]⟩
  v := Vector.replicate 16 0
  i := 0
  dt := 0
  st := 0
  pc := BitVec.ofNat 16 Config.progBase
  stack := Vector.replicate 16 0
  sp := 0
  key := Vector.replicate 16 false
  disp := Vector.replicate 32 (Vector.replicate 64 false)
  randDraws := 0

end Sys2Proof.Machine
end

