-- ==== Sys2Proof/Machine/Ops.lean ====
section
/-! DEFINITION. The named operations over memory, registers, the stack, the display and the keypad, and taking
a fault. Nothing else in the model updates a field of State. -/

namespace Sys2Proof.Machine

/-! ### Memory -/

/-- What an address nothing has written reads as: the reset contents (10_state.md R36), GLYPHS below 0x050 and
zero from there (assumption logs 1 and 3). -/
def resetByte (a : Nat) : Byte := if a < Config.glyphArea then Config.glyph a else 0

/-- The byte listed for an address. -/
def Memory.lookup : List Host.Cell → Nat → Option Byte
  | [], _ => none
  | (b, v) :: rest, a => if b = a then some v else Memory.lookup rest a

/-- `MEM[a]` (R30). -/
def Memory.read (m : Memory) (a : Nat) : Byte := (Memory.lookup m.cells a).getD (resetByte a)

/-- List `(a, v)` in place of any entry for `a`, addresses kept rising. -/
def Memory.insert : List Host.Cell → Nat → Byte → List Host.Cell
  | [], a, v => [(a, v)]
  | (b, w) :: rest, a, v =>
    if a < b then (a, v) :: (b, w) :: rest
    else if a = b then (a, v) :: rest
    else (b, w) :: Memory.insert rest a v

/-- Drop any entry for `a`. -/
def Memory.remove (cells : List Host.Cell) (a : Nat) : List Host.Cell := cells.filter (fun c => c.1 != a)

/-- `MEM[a] <- v` (R30). Every instruction checks its addresses before it writes (20_memory.md R57), so an
address above 0xFFF never comes here; such a write changes nothing (assumption log 7). -/
def Memory.write (m : Memory) (a : Nat) (v : Byte) : Memory :=
  if a < Config.memSize then
    ⟨if v = resetByte a then Memory.remove m.cells a else Memory.insert m.cells a v⟩
  else m

/-- The canonical form: addresses strictly rising and inside memory, and no entry that equals what the
address reads as unlisted. -/
abbrev Memory.wf (m : Memory) : Prop :=
  m.cells.Pairwise (fun c d => c.1 < d.1) ∧
    ∀ c ∈ m.cells, c.1 < Config.memSize ∧ c.2 ≠ resetByte c.1

/-- The entries of consecutive bytes from address `a` on. -/
def Memory.cellsFrom : Nat → List Byte → List Host.Cell
  | _, [] => []
  | a, v :: rest =>
    if v = resetByte a then Memory.cellsFrom (a + 1) rest
    else (a, v) :: Memory.cellsFrom (a + 1) rest

/-- `load` (70_reset_and_hazards.md R274): the first 3584 bytes of the program from 0x200 on, zero in the rest
of `MEM[0x200..0xFFF]`, and everything below 0x200 kept. -/
def Memory.load (m : Memory) (program : List Byte) : Memory :=
  ⟨m.cells.filter (fun c => decide (c.1 < Config.progBase)) ++
    Memory.cellsFrom Config.progBase (program.take Config.progSize)⟩

/-- The 4096 bytes of memory in order (60_exceptions.md R250, "full memory image"). -/
def Memory.image (m : Memory) : List Byte := (List.range Config.memSize).map m.read

/-- `MEM[a]` in a state (00_scope.md R10, MemRead). -/
def State.memRead (s : State) (a : Nat) : Byte := s.mem.read a

/-- `MEM[a] <- v` in a state (00_scope.md R10, MemWrite). -/
def State.memWrite (s : State) (a : Nat) (v : Byte) : State := { s with mem := s.mem.write a v }

/-- `load` in a state: memory only (R274, D13; assumption log 15). -/
def State.loadProgram (s : State) (program : List Byte) : State := { s with mem := s.mem.load program }

/-! ### Registers -/

/-- `V[x]` (10_state.md R21). -/
def State.reg (s : State) (x : RegIdx) : Byte := s.v[x.val]

/-- `V[x] <- b` (R21). -/
def State.setReg (s : State) (x : RegIdx) (b : Byte) : State := { s with v := s.v.set x.val b }

/-- `I <- a` (R24). -/
def State.setI (s : State) (a : Word) : State := { s with i := a }

/-- `DT <- b` (R27). -/
def State.setDt (s : State) (b : Byte) : State := { s with dt := b }

/-- `ST <- b` (R28). -/
def State.setSt (s : State) (b : Byte) : State := { s with st := b }

/-- `pc <- t` (R23). -/
def State.setPc (s : State) (t : Word) : State := { s with pc := t }

/-! ### The call/return buffer -/

/-- `STACK[j]` (R25). -/
def State.stackEntry (s : State) (j : Fin 16) : Word := s.stack[j.val]

/-- `STACK[j] <- t` (R25). -/
def State.setStackEntry (s : State) (j : Fin 16) (t : Word) : State := { s with stack := s.stack.set j.val t }

/-- `SP <- n` (R26). -/
def State.setSp (s : State) (n : Byte) : State := { s with sp := n }

/-! ### The display, the keypad, the random source -/

/-- `DISP[row][col]` (R31). -/
def State.cell (s : State) (row : DispRow) (col : DispCol) : Bool := s.disp[row.val][col.val]

/-- `DISP[row][col] <- b` (R31). -/
def State.setCell (s : State) (row : DispRow) (col : DispCol) (b : Bool) : State :=
  { s with disp := s.disp.set row.val (s.disp[row.val].set col.val b) }

/-- Every cell false (44_display.md R200). -/
def State.clearDisplay (s : State) : State := { s with disp := Vector.replicate 32 (Vector.replicate 64 false) }

/-- `KEY[k]` (R32). -/
def State.keyState (s : State) (k : KeyIdx) : Bool := s.key[k.val]

/-- `KEY[k] <- b` (R32). -/
def State.setKey (s : State) (k : KeyIdx) (b : Bool) : State := { s with key := s.key.set k.val b }

/-- The byte the random source yields next (R34; assumption log 2). -/
def State.randByte (s : State) : Byte := Config.randomByte s.randDraws

/-- One byte of the random source is consumed (R34). -/
def State.drawRandom (s : State) : State := { s with randDraws := s.randDraws + 1 }

/-! ### Taking a fault -/

/-- `raise` (00_scope.md R10, 60_exceptions.md R236): the step ends with the fault and its recorded value. No
register is saved, no mode or mask changes, control goes to no vector: there is no next state. There is no
return from a fault to model (R240). -/
def raise {σ : Type} (f : Fault) : Host.Outcome σ Fault Refusal := .fault f

end Sys2Proof.Machine
end

