-- ==== Sys2Proof/Machine/Operands.lean ====
section
/-! DEFINITION. The operand forms: zero extension, the one data addressing mode and its range check
(spec/20_memory.md R57, 43_index_memory.md R186), register blocks, display coordinates, key indices, decimal
digits. -/

namespace Sys2Proof.Machine

/-- `zext_16` of a register value (10_state.md R21). -/
def zextByte (b : Byte) : Word := b.setWidth 16

/-- `zext_16` of the field `nnn` (41_control_flow.md R131). -/
def zextAddr (nnn : Addr12) : Word := nnn.setWidth 16

/-- The effective address `I + k`, an unbounded integer (R57, R186). -/
def State.ea (s : State) (k : Nat) : Nat := s.i.toNat + k

/-- The range check of an instruction that accesses `count` bytes from `I` on (R57): if there is at least one
and the highest address is above 0xFFF, the fault, before any effect. -/
def checkRange {σ : Type} (s : State) (count : Nat) (effect : Host.Outcome σ Fault Refusal) :
    Host.Outcome σ Fault Refusal :=
  if 0 < count ∧ Config.lastAddress < s.ea (count - 1) then raise (.memoryOutOfRange (s.ea (count - 1)))
  else effect

/-- `V[0]` to `V[x]` inclusive, in increasing order (R184). -/
def registersUpTo (x : RegIdx) : List RegIdx :=
  [0, 1, 2, 3, 4, 5, 6, 7, 8, 9, 10, 11, 12, 13, 14, 15].filter (fun i => decide (i ≤ x))

/-- The display row of sprite row `r` for the start row `b`: `(b + r) mod 32` (44_display.md R201). -/
def displayRow (b : Byte) (r : Nat) : DispRow := ⟨(b.toNat + r) % 32, Nat.mod_lt _ (by decide)⟩

/-- The display column of bit offset `c` for the start column `a`: `(a + c) mod 64` (R201). -/
def displayCol (a : Byte) (c : Nat) : DispCol := ⟨(a.toNat + c) % 64, Nat.mod_lt _ (by decide)⟩

/-- Bit `7 - c` of a sprite row: the most significant bit is column offset 0 (R201). -/
def spriteBit (sprite : Byte) (c : Nat) : Bool := sprite.getLsbD (7 - c)

/-- `(a <= 15) and KEY[a]`: an index above 15 names no key (45_keypad_timers.md R210, D9; assumption log 11). -/
def State.keyDownAt (s : State) (a : Byte) : Bool :=
  if h : a.toNat < 16 then s.keyState ⟨a.toNat, h⟩ else false

/-- The least key that is down, if any (R212). -/
def State.lowestKeyDown (s : State) : Option KeyIdx :=
  [0, 1, 2, 3, 4, 5, 6, 7, 8, 9, 10, 11, 12, 13, 14, 15].find? s.keyState

/-- A key index as a register value (R212). -/
def keyByte (k : KeyIdx) : Byte := BitVec.ofNat 8 k.val

/-- The address of the glyph of `a`: `5 * zext_16(a)`, `a` not reduced to a nibble (43_index_memory.md R182). -/
def glyphAddress (a : Byte) : Word := BitVec.ofNat 16 Config.glyphBytes * zextByte a

/-- `a div 100` (R183). -/
def hundredsDigit (a : Byte) : Byte := BitVec.ofNat 8 (a.toNat / 100)

/-- `(a div 10) mod 10` (R183). -/
def tensDigit (a : Byte) : Byte := BitVec.ofNat 8 (a.toNat / 10 % 10)

/-- `a mod 10` (R183). -/
def onesDigit (a : Byte) : Byte := BitVec.ofNat 8 (a.toNat % 10)

end Sys2Proof.Machine
end

