-- ==== Sys2Proof/Machine/Flags.lean ====
section
/-! DEFINITION. The flag `VF` (spec/10_state.md R22): what the six flag-writing instructions write, and in which
order (42_alu.md R150). -/

namespace Sys2Proof.Machine

/-- As a flag `VF` only ever receives 0 or 1 (R22). -/
def flagByte (b : Bool) : Byte := if b then 1 else 0

/-- `VF <- flag` (R22). -/
def State.setFlag (s : State) (b : Bool) : State := s.setReg vf (flagByte b)

/-- The carry of `8xy4`: the 16-bit sum exceeds 255 (42_alu.md R157). -/
def carryOut (a b : Byte) : Bool := decide (255 < (zextByte a + zextByte b).toNat)

/-- The flag of the two subtractions: the minuend is strictly greater than the subtrahend (R158, R160). -/
def strictlyGreater (minuend subtrahend : Byte) : Bool := decide (subtrahend.toNat < minuend.toNat)

/-- The bit ShiftRight shifts out, `a[0]` (R159). -/
def lowBit (a : Byte) : Bool := a.getLsbD 0

/-- The bit ShiftLeft shifts out, `a[7]` (R161). -/
def highBit (a : Byte) : Bool := a.getLsbD 7

/-- `VF <- flag` and then `V[x] <- result`: with `x` = F the result remains (R150, D8; assumption log 10). -/
def State.setFlagThenReg (s : State) (flag : Bool) (x : RegIdx) (result : Byte) : State :=
  (s.setFlag flag).setReg x result

end Sys2Proof.Machine
end

