-- ==== Sys2Proof/Syntax.lean ====
section
/-! DEFINITION. The 34 instructions (spec/30_encoding.md R86, opcode_table.json), one constructor a row. The
decoded instruction carries only the operand fields it needs (R85). The invalid case is no row of the table: it
is the decoder's answer `Decoded.invalid` (Decode.lean). -/

namespace Sys2Proof

/-- A decoded instruction. Register fields are register numbers; `nnn` and `kk` are the word's own bits; the
row count `n` of Draw is a number whose bound WellFormed checks. -/
inductive Instr where
  /-- `00E0` Clear. -/
  | clear
  /-- `00EE` ReturnSubroutine. -/
  | returnSubroutine
  /-- `1nnn` JumpTo. -/
  | jumpTo (nnn : Addr12)
  /-- `2nnn` CallSubroutine. -/
  | callSubroutine (nnn : Addr12)
  /-- `3xkk` SkipEqual. -/
  | skipEqual (x : RegIdx) (kk : Byte)
  /-- `4xkk` SkipNotEqual. -/
  | skipNotEqual (x : RegIdx) (kk : Byte)
  /-- `5xy0` SkipRegisterEqual. -/
  | skipRegisterEqual (x y : RegIdx)
  /-- `6xkk` SetRegister. -/
  | setRegister (x : RegIdx) (kk : Byte)
  /-- `7xkk` AddRegister. -/
  | addRegister (x : RegIdx) (kk : Byte)
  /-- `8xy0` CopyRegister. -/
  | copyRegister (x y : RegIdx)
  /-- `8xy1` Or. -/
  | or (x y : RegIdx)
  /-- `8xy2` And. -/
  | and (x y : RegIdx)
  /-- `8xy3` Xor. -/
  | xor (x y : RegIdx)
  /-- `8xy4` AddWithCarry. -/
  | addWithCarry (x y : RegIdx)
  /-- `8xy5` SubWithBorrow, `Vx - Vy`. -/
  | subWithBorrow (x y : RegIdx)
  /-- `8xy6` ShiftRight; the `y` nibble is dropped (R89). -/
  | shiftRight (x : RegIdx)
  /-- `8xy7` SubWithBorrow reversed, `Vy - Vx`. -/
  | subWithBorrowReversed (x y : RegIdx)
  /-- `8xyE` ShiftLeft; the `y` nibble is dropped (R89). -/
  | shiftLeft (x : RegIdx)
  /-- `9xy0` SkipRegisterNotEqual. -/
  | skipRegisterNotEqual (x y : RegIdx)
  /-- `Annn` SetAddressRegister. -/
  | setAddressRegister (nnn : Addr12)
  /-- `Bnnn` JumpWithOffset. -/
  | jumpWithOffset (nnn : Addr12)
  /-- `Cxkk` RandomAnd. -/
  | randomAnd (x : RegIdx) (kk : Byte)
  /-- `Dxyn` Draw, `n` sprite rows. -/
  | draw (x y : RegIdx) (n : Nat)
  /-- `Ex9E` SkipIfKeyDown. -/
  | skipIfKeyDown (x : RegIdx)
  /-- `ExA1` SkipIfKeyUp. -/
  | skipIfKeyUp (x : RegIdx)
  /-- `Fx07` ReadDelayTimer. -/
  | readDelayTimer (x : RegIdx)
  /-- `Fx0A` BlockForKey. -/
  | blockForKey (x : RegIdx)
  /-- `Fx15` WriteDelayTimer. -/
  | writeDelayTimer (x : RegIdx)
  /-- `Fx18` WriteSoundTimer. -/
  | writeSoundTimer (x : RegIdx)
  /-- `Fx1E` AddToAddressRegister. -/
  | addToAddressRegister (x : RegIdx)
  /-- `Fx29` SetAddressToGlyph. -/
  | setAddressToGlyph (x : RegIdx)
  /-- `Fx33` StoreBCD. -/
  | storeBCD (x : RegIdx)
  /-- `Fx55` StoreRegisterBlock. -/
  | storeRegisterBlock (x : RegIdx)
  /-- `Fx65` LoadRegisterBlock. -/
  | loadRegisterBlock (x : RegIdx)
  deriving DecidableEq, Repr

end Sys2Proof
end

