-- ==== Sys2Proof/WellFormed.lean ====
section
/-! DEFINITION. Which instruction terms a word can encode (spec/30_encoding.md R82). Register fields, `kk` and
`nnn` have their field's width in their type; the row count of Draw is checked here. -/

namespace Sys2Proof

/-- The row count field `n` is `w[3:0]`: 0 to 15 (R82). -/
@[simp] abbrev Instr.rowCountFits (n : Nat) : Bool := decide (n < 16)

/-- Every operand fits its field of the encoding (R82). -/
def Instr.wellFormed : Instr → Bool
  | .clear => true
  | .returnSubroutine => true
  | .jumpTo _ => true
  | .callSubroutine _ => true
  | .skipEqual _ _ => true
  | .skipNotEqual _ _ => true
  | .skipRegisterEqual _ _ => true
  | .setRegister _ _ => true
  | .addRegister _ _ => true
  | .copyRegister _ _ => true
  | .or _ _ => true
  | .and _ _ => true
  | .xor _ _ => true
  | .addWithCarry _ _ => true
  | .subWithBorrow _ _ => true
  | .shiftRight _ => true
  | .subWithBorrowReversed _ _ => true
  | .shiftLeft _ => true
  | .skipRegisterNotEqual _ _ => true
  | .setAddressRegister _ => true
  | .jumpWithOffset _ => true
  | .randomAnd _ _ => true
  | .draw _ _ n => rowCountFits n
  | .skipIfKeyDown _ => true
  | .skipIfKeyUp _ => true
  | .readDelayTimer _ => true
  | .blockForKey _ => true
  | .writeDelayTimer _ => true
  | .writeSoundTimer _ => true
  | .addToAddressRegister _ => true
  | .setAddressToGlyph _ => true
  | .storeBCD _ => true
  | .storeRegisterBlock _ => true
  | .loadRegisterBlock _ => true

/-- The instruction is well formed. -/
abbrev Instr.WellFormed (i : Instr) : Prop := i.wellFormed = true

end Sys2Proof
end

