-- ==== Sys2Proof/Decode.lean ====
section
/-! DEFINITION. From bytes to a word, from a word to an instruction, and back (spec/30_encoding.md R80 to R92,
20_memory.md R50). The decoder is the decision tree of R92; `opcodeTable` is the map of R86. -/

namespace Sys2Proof

/-! ### Bytes and fields -/

/-- The instruction word of two bytes: the byte at the lower address is the more significant (R50). -/
def wordOfBytes (hi lo : Byte) : Word := hi ++ lo

/-- The byte of a word that stands at the lower address (R50). -/
def highByte (w : Word) : Byte := w.extractLsb' 8 8

/-- The byte of a word that stands at the higher address (R50). -/
def lowByte (w : Word) : Byte := w.extractLsb' 0 8

/-- `n0 = w[15:12]` (R81). -/
def nibble0 (w : Word) : Nibble := w.extractLsb' 12 4
/-- `n1 = w[11:8]` (R81). -/
def nibble1 (w : Word) : Nibble := w.extractLsb' 8 4
/-- `n2 = w[7:4]` (R81). -/
def nibble2 (w : Word) : Nibble := w.extractLsb' 4 4
/-- `n3 = w[3:0]` (R81). -/
def nibble3 (w : Word) : Nibble := w.extractLsb' 0 4

/-- Field `nnn = w[11:0]` (R82). -/
def fieldNnn (w : Word) : Addr12 := w.extractLsb' 0 12
/-- Field `kk = w[7:0]` (R82). -/
def fieldKk (w : Word) : Byte := w.extractLsb' 0 8
/-- Field `x = w[11:8]`, a register number (R82). -/
def fieldX (w : Word) : RegIdx := (nibble1 w).toFin
/-- Field `y = w[7:4]`, a register number (R82). -/
def fieldY (w : Word) : RegIdx := (nibble2 w).toFin
/-- Field `n = w[3:0]`, a row count (R82). -/
def fieldN (w : Word) : Nat := (nibble3 w).toNat

/-! ### Decoding -/

/-- What the decoder answers: one of the 34 instructions, or InvalidOpcode with the four raw nibbles (R84, R85). -/
inductive Decoded where
  | instr (i : Instr)
  | invalid (n0 n1 n2 n3 : Nibble)
  deriving DecidableEq, Repr

/-- InvalidOpcode(n0, n1, n2, n3) of a word (R85). -/
def invalidOf (w : Word) : Decoded := .invalid (nibble0 w) (nibble1 w) (nibble2 w) (nibble3 w)

/-- Family 0: only 0x00E0 and 0x00EE (R92). -/
def decode0 (w : Word) : Decoded :=
  if w = 0x00E0 then .instr .clear
  else if w = 0x00EE then .instr .returnSubroutine
  else invalidOf w

/-- Families 5 and 9 need `n3 = 0` (R84, R92). -/
def decodeXY0 (w : Word) (i : Instr) : Decoded := if nibble3 w = 0 then .instr i else invalidOf w

/-- Family 8 dispatches on `n3` (R92). -/
def decode8 (w : Word) : Decoded :=
  let x := fieldX w
  let y := fieldY w
  match fieldN w with
  | 0x0 => .instr (.copyRegister x y)
  | 0x1 => .instr (.or x y)
  | 0x2 => .instr (.and x y)
  | 0x3 => .instr (.xor x y)
  | 0x4 => .instr (.addWithCarry x y)
  | 0x5 => .instr (.subWithBorrow x y)
  | 0x6 => .instr (.shiftRight x)
  | 0x7 => .instr (.subWithBorrowReversed x y)
  | 0xE => .instr (.shiftLeft x)
  | _ => invalidOf w

/-- Family E dispatches on `kk` (R92). -/
def decodeE (w : Word) : Decoded :=
  let x := fieldX w
  match (fieldKk w).toNat with
  | 0x9E => .instr (.skipIfKeyDown x)
  | 0xA1 => .instr (.skipIfKeyUp x)
  | _ => invalidOf w

/-- Family F dispatches on `kk` (R92). -/
def decodeF (w : Word) : Decoded :=
  let x := fieldX w
  match (fieldKk w).toNat with
  | 0x07 => .instr (.readDelayTimer x)
  | 0x0A => .instr (.blockForKey x)
  | 0x15 => .instr (.writeDelayTimer x)
  | 0x18 => .instr (.writeSoundTimer x)
  | 0x1E => .instr (.addToAddressRegister x)
  | 0x29 => .instr (.setAddressToGlyph x)
  | 0x33 => .instr (.storeBCD x)
  | 0x55 => .instr (.storeRegisterBlock x)
  | 0x65 => .instr (.loadRegisterBlock x)
  | _ => invalidOf w

/-- The decoder: a total function of the word alone, by the decision tree of R92 on the major opcode `n0`. -/
def decodeWord (w : Word) : Decoded :=
  let x := fieldX w
  let y := fieldY w
  let kk := fieldKk w
  let nnn := fieldNnn w
  match (nibble0 w).toNat with
  | 0x0 => decode0 w
  | 0x1 => .instr (.jumpTo nnn)
  | 0x2 => .instr (.callSubroutine nnn)
  | 0x3 => .instr (.skipEqual x kk)
  | 0x4 => .instr (.skipNotEqual x kk)
  | 0x5 => decodeXY0 w (.skipRegisterEqual x y)
  | 0x6 => .instr (.setRegister x kk)
  | 0x7 => .instr (.addRegister x kk)
  | 0x8 => decode8 w
  | 0x9 => decodeXY0 w (.skipRegisterNotEqual x y)
  | 0xA => .instr (.setAddressRegister nnn)
  | 0xB => .instr (.jumpWithOffset nnn)
  | 0xC => .instr (.randomAnd x kk)
  | 0xD => .instr (.draw x y (fieldN w))
  | 0xE => decodeE w
  | _ => decodeF w

/-- Why a list of bytes holds no instruction at its front. -/
inductive DecodeReject where
  /-- Fewer than two bytes: every instruction is one 16-bit word (R80). -/
  | tooFewBytes
  /-- The word is one of the 21582 invalid ones (R87); the nibbles are those of R85. -/
  | invalidOpcode (n0 n1 n2 n3 : Nibble)
  deriving DecidableEq, Repr

/-- The first instruction of a list of bytes and the bytes after it, or a rejection by name. -/
def decodeBytes : List Byte → Except DecodeReject (Instr × List Byte)
  | hi :: lo :: rest =>
    match decodeWord (wordOfBytes hi lo) with
    | .instr i => .ok (i, rest)
    | .invalid n0 n1 n2 n3 => .error (.invalidOpcode n0 n1 n2 n3)
  | _ => .error .tooFewBytes

/-- The two bytes of the instruction word `w`, its bits above `nbits` zero, in the order of memory (R50). -/
def tableBytes (nbits w : Nat) : List Byte :=
  let word : Word := BitVec.ofNat 16 (w % 2 ^ nbits)
  [highByte word, lowByte word]

/-- The instruction the decoder reads from the opcode-table word `w` of `nbits` bits. -/
def decodeTableWord (nbits w : Nat) : Option Instr :=
  match decodeBytes (tableBytes nbits w) with
  | .ok (i, _) => some i
  | .error _ => none

/-! ### Encoding -/

/-- A register number as a nibble. -/
def regNibble (r : RegIdx) : Nibble := .ofFin r

/-- Format NNN (R83). -/
def formNnn (op : Nibble) (nnn : Addr12) : Word := op ++ nnn
/-- Format XKK (R83). -/
def formXkk (op : Nibble) (x : RegIdx) (kk : Byte) : Word := op ++ regNibble x ++ kk
/-- Formats XY and XYN (R83): the last nibble is the function or the row count. -/
def formXyn (op : Nibble) (x y : RegIdx) (n : Nibble) : Word := op ++ regNibble x ++ regNibble y ++ n
/-- Format X (R83): the last byte is the function. -/
def formX (op : Nibble) (x : RegIdx) (fn : Byte) : Word := op ++ regNibble x ++ fn

/-- The word of an instruction (R83, R91). The dropped `y` nibble of the two shifts is written as 0 (R91). -/
def encode : Instr → Word
  | .clear => 0x00E0
  | .returnSubroutine => 0x00EE
  | .jumpTo nnn => formNnn 0x1 nnn
  | .callSubroutine nnn => formNnn 0x2 nnn
  | .skipEqual x kk => formXkk 0x3 x kk
  | .skipNotEqual x kk => formXkk 0x4 x kk
  | .skipRegisterEqual x y => formXyn 0x5 x y 0x0
  | .setRegister x kk => formXkk 0x6 x kk
  | .addRegister x kk => formXkk 0x7 x kk
  | .copyRegister x y => formXyn 0x8 x y 0x0
  | .or x y => formXyn 0x8 x y 0x1
  | .and x y => formXyn 0x8 x y 0x2
  | .xor x y => formXyn 0x8 x y 0x3
  | .addWithCarry x y => formXyn 0x8 x y 0x4
  | .subWithBorrow x y => formXyn 0x8 x y 0x5
  | .shiftRight x => formXyn 0x8 x 0 0x6
  | .subWithBorrowReversed x y => formXyn 0x8 x y 0x7
  | .shiftLeft x => formXyn 0x8 x 0 0xE
  | .skipRegisterNotEqual x y => formXyn 0x9 x y 0x0
  | .setAddressRegister nnn => formNnn 0xA nnn
  | .jumpWithOffset nnn => formNnn 0xB nnn
  | .randomAnd x kk => formXkk 0xC x kk
  | .draw x y n => formXyn 0xD x y (BitVec.ofNat 4 n)
  | .skipIfKeyDown x => formX 0xE x 0x9E
  | .skipIfKeyUp x => formX 0xE x 0xA1
  | .readDelayTimer x => formX 0xF x 0x07
  | .blockForKey x => formX 0xF x 0x0A
  | .writeDelayTimer x => formX 0xF x 0x15
  | .writeSoundTimer x => formX 0xF x 0x18
  | .addToAddressRegister x => formX 0xF x 0x1E
  | .setAddressToGlyph x => formX 0xF x 0x29
  | .storeBCD x => formX 0xF x 0x33
  | .storeRegisterBlock x => formX 0xF x 0x55
  | .loadRegisterBlock x => formX 0xF x 0x65

/-- The two bytes of an instruction in the order of memory (R50, R91). -/
def encodeBytes (i : Instr) : List Byte := [highByte (encode i), lowByte (encode i)]

/-! ### The opcode map -/

/-- One row of the opcode map (R86): a word `w` is the row's instruction exactly when `w & mask = value`, and
its operands are the fields of `w` that `build` takes. -/
structure OpcodeRow where
  mnemonic : String
  mask : Word
  value : Word
  build : Word → Instr

/-- The complete opcode map (R86), in the order of the spec. -/
def opcodeTable : List OpcodeRow :=
  [⟨"Clear", 0xFFFF, 0x00E0, fun _ => .clear⟩,
   ⟨"ReturnSubroutine", 0xFFFF, 0x00EE, fun _ => .returnSubroutine⟩,
   ⟨"JumpTo", 0xF000, 0x1000, fun w => .jumpTo (fieldNnn w)⟩,
   ⟨"CallSubroutine", 0xF000, 0x2000, fun w => .callSubroutine (fieldNnn w)⟩,
   ⟨"SkipEqual", 0xF000, 0x3000, fun w => .skipEqual (fieldX w) (fieldKk w)⟩,
   ⟨"SkipNotEqual", 0xF000, 0x4000, fun w => .skipNotEqual (fieldX w) (fieldKk w)⟩,
   ⟨"SkipRegisterEqual", 0xF00F, 0x5000, fun w => .skipRegisterEqual (fieldX w) (fieldY w)⟩,
   ⟨"SetRegister", 0xF000, 0x6000, fun w => .setRegister (fieldX w) (fieldKk w)⟩,
   ⟨"AddRegister", 0xF000, 0x7000, fun w => .addRegister (fieldX w) (fieldKk w)⟩] ++
  [⟨"CopyRegister", 0xF00F, 0x8000, fun w => .copyRegister (fieldX w) (fieldY w)⟩,
   ⟨"Or", 0xF00F, 0x8001, fun w => .or (fieldX w) (fieldY w)⟩,
   ⟨"And", 0xF00F, 0x8002, fun w => .and (fieldX w) (fieldY w)⟩,
   ⟨"Xor", 0xF00F, 0x8003, fun w => .xor (fieldX w) (fieldY w)⟩,
   ⟨"AddWithCarry", 0xF00F, 0x8004, fun w => .addWithCarry (fieldX w) (fieldY w)⟩,
   ⟨"SubWithBorrow", 0xF00F, 0x8005, fun w => .subWithBorrow (fieldX w) (fieldY w)⟩,
   ⟨"ShiftRight", 0xF00F, 0x8006, fun w => .shiftRight (fieldX w)⟩,
   ⟨"SubWithBorrowReversed", 0xF00F, 0x8007, fun w => .subWithBorrowReversed (fieldX w) (fieldY w)⟩,
   ⟨"ShiftLeft", 0xF00F, 0x800E, fun w => .shiftLeft (fieldX w)⟩,
   ⟨"SkipRegisterNotEqual", 0xF00F, 0x9000, fun w => .skipRegisterNotEqual (fieldX w) (fieldY w)⟩] ++
  [⟨"SetAddressRegister", 0xF000, 0xA000, fun w => .setAddressRegister (fieldNnn w)⟩,
   ⟨"JumpWithOffset", 0xF000, 0xB000, fun w => .jumpWithOffset (fieldNnn w)⟩,
   ⟨"RandomAnd", 0xF000, 0xC000, fun w => .randomAnd (fieldX w) (fieldKk w)⟩,
   ⟨"Draw", 0xF000, 0xD000, fun w => .draw (fieldX w) (fieldY w) (fieldN w)⟩,
   ⟨"SkipIfKeyDown", 0xF0FF, 0xE09E, fun w => .skipIfKeyDown (fieldX w)⟩,
   ⟨"SkipIfKeyUp", 0xF0FF, 0xE0A1, fun w => .skipIfKeyUp (fieldX w)⟩] ++
  [⟨"ReadDelayTimer", 0xF0FF, 0xF007, fun w => .readDelayTimer (fieldX w)⟩,
   ⟨"BlockForKey", 0xF0FF, 0xF00A, fun w => .blockForKey (fieldX w)⟩,
   ⟨"WriteDelayTimer", 0xF0FF, 0xF015, fun w => .writeDelayTimer (fieldX w)⟩,
   ⟨"WriteSoundTimer", 0xF0FF, 0xF018, fun w => .writeSoundTimer (fieldX w)⟩,
   ⟨"AddToAddressRegister", 0xF0FF, 0xF01E, fun w => .addToAddressRegister (fieldX w)⟩,
   ⟨"SetAddressToGlyph", 0xF0FF, 0xF029, fun w => .setAddressToGlyph (fieldX w)⟩,
   ⟨"StoreBCD", 0xF0FF, 0xF033, fun w => .storeBCD (fieldX w)⟩,
   ⟨"StoreRegisterBlock", 0xF0FF, 0xF055, fun w => .storeRegisterBlock (fieldX w)⟩,
   ⟨"LoadRegisterBlock", 0xF0FF, 0xF065, fun w => .loadRegisterBlock (fieldX w)⟩]

/-- The row's instruction is the one the word matches (R86). -/
def OpcodeRow.covers (row : OpcodeRow) (w : Word) : Bool := w &&& row.mask == row.value

end Sys2Proof
end

