-- ==== Sys2Proof/Machine/Sequencer.lean ====
section
/-! DEFINITION. The program counter sequencer (spec/40_sequencer.md R110 to R118): the fetch, the four cursor
directives, and how a directive is applied. -/

namespace Sys2Proof.Machine

/-- The control-flow directive an instruction returns (R114). Transient: not part of State (10_state.md R35). -/
inductive Cursor where
  | stay
  | next
  | skip
  | jump (target : Word)
  deriving DecidableEq, Repr

/-- Applying a directive, the only way `pc` is written (R114). The sums are modulo 65536 (D20; assumption
log 8). -/
def State.applyCursor (s : State) : Cursor → State
  | .stay => s
  | .next => s.setPc (s.pc + 2)
  | .skip => s.setPc (s.pc + 4)
  | .jump t => s.setPc t

/-- What executing an instruction yields (R113): the changed state and the directive, or a fault, or a refusal.
`pc` is still the instruction's own address in that state. -/
abbrev Effect := Host.Outcome (State × Cursor) Fault Refusal

/-- The instruction completes with a directive (R113). -/
def complete (s : State) (c : Cursor) : Effect := .next (s, c)

/-- The directive of a conditional skip: "Skip or Next, never Jump" (R114). -/
def skipIf (condition : Bool) : Cursor := if condition then .skip else .next

/-- The end of a step: the directive is applied (R110, R114). -/
def finish : Effect → Host.Outcome State Fault Refusal
  | .next (s, c) => .next (s.applyCursor c)
  | .fault f => .fault f
  | .refused r => .refused r

/-- The word at `pc`, big-endian, at any alignment (R111, 20_memory.md R50, R54). -/
def State.wordAtPc (s : State) : Word := wordOfBytes (s.memRead s.pc.toNat) (s.memRead (s.pc.toNat + 1))

/-- The fetch: FetchOutOfRange when `pc` is above 0xFFE, else the word at `pc` (R111, R56; assumption log 6). -/
def State.fetch (s : State) : Except Fault Word :=
  if Config.lastAddress < s.pc.toNat + 1 then .error (.fetchOutOfRange s.pc) else .ok s.wordAtPc

end Sys2Proof.Machine
end

