-- ==== Sys2Proof/Machine/Alu.lean ====
section
/-! DEFINITION. The register and arithmetic instructions (spec/42_alu.md R150 to R163). Every register operand
is read from the state at entry; a flag is written before the result (R150). All return Next. -/

namespace Sys2Proof.Machine

/-- SetRegister `6xkk` (R151). -/
def runSetRegister (x : RegIdx) (kk : Byte) (s : State) : Effect := complete (s.setReg x kk) .next

/-- AddRegister `7xkk` (R152): modulo 256, VF not written. -/
def runAddRegister (x : RegIdx) (kk : Byte) (s : State) : Effect := complete (s.setReg x (s.reg x + kk)) .next

/-- CopyRegister `8xy0` (R153; the direction is G1's general knowledge, assumption log 13). -/
def runCopyRegister (x y : RegIdx) (s : State) : Effect := complete (s.setReg x (s.reg y)) .next

/-- Or `8xy1` (R154): VF not written (D23; assumption log 13). -/
def runOr (x y : RegIdx) (s : State) : Effect := complete (s.setReg x (s.reg x ||| s.reg y)) .next

/-- And `8xy2` (R155). -/
def runAnd (x y : RegIdx) (s : State) : Effect := complete (s.setReg x (s.reg x &&& s.reg y)) .next

/-- Xor `8xy3` (R156). -/
def runXor (x y : RegIdx) (s : State) : Effect := complete (s.setReg x (s.reg x ^^^ s.reg y)) .next

/-- AddWithCarry `8xy4` (R157). -/
def runAddWithCarry (x y : RegIdx) (s : State) : Effect :=
  let a := s.reg x
  let b := s.reg y
  complete (s.setFlagThenReg (carryOut a b) x (a + b)) .next

/-- SubWithBorrow `8xy5` (R158): `Vx - Vy`. -/
def runSubWithBorrow (x y : RegIdx) (s : State) : Effect :=
  let a := s.reg x
  let b := s.reg y
  complete (s.setFlagThenReg (strictlyGreater a b) x (a - b)) .next

/-- ShiftRight `8xy6` (R159). -/
def runShiftRight (x : RegIdx) (s : State) : Effect :=
  let a := s.reg x
  complete (s.setFlagThenReg (lowBit a) x (a >>> 1)) .next

/-- SubWithBorrow reversed `8xy7` (R160): `Vy - Vx` into `V[x]`. -/
def runSubWithBorrowReversed (x y : RegIdx) (s : State) : Effect :=
  let a := s.reg x
  let b := s.reg y
  complete (s.setFlagThenReg (strictlyGreater b a) x (b - a)) .next

/-- ShiftLeft `8xyE` (R161). -/
def runShiftLeft (x : RegIdx) (s : State) : Effect :=
  let a := s.reg x
  complete (s.setFlagThenReg (highBit a) x (a <<< 1)) .next

/-- RandomAnd with the byte `r` the environment supplies (R162). -/
def randomAndWith (r : Byte) (x : RegIdx) (kk : Byte) (s : State) : State := s.setReg x (r &&& kk)

/-- RandomAnd `Cxkk` (R162): exactly one byte of the random source is consumed (10_state.md R34). -/
def runRandomAnd (x : RegIdx) (kk : Byte) (s : State) : Effect :=
  complete (randomAndWith s.randByte x kk s.drawRandom) .next

def execSetRegister (x : RegIdx) (kk : Byte) (s : State) : Host.Outcome State Fault Refusal :=
  finish (runSetRegister x kk s)
def execAddRegister (x : RegIdx) (kk : Byte) (s : State) : Host.Outcome State Fault Refusal :=
  finish (runAddRegister x kk s)
def execCopyRegister (x y : RegIdx) (s : State) : Host.Outcome State Fault Refusal := finish (runCopyRegister x y s)
def execOr (x y : RegIdx) (s : State) : Host.Outcome State Fault Refusal := finish (runOr x y s)
def execAnd (x y : RegIdx) (s : State) : Host.Outcome State Fault Refusal := finish (runAnd x y s)
def execXor (x y : RegIdx) (s : State) : Host.Outcome State Fault Refusal := finish (runXor x y s)
def execAddWithCarry (x y : RegIdx) (s : State) : Host.Outcome State Fault Refusal := finish (runAddWithCarry x y s)
def execSubWithBorrow (x y : RegIdx) (s : State) : Host.Outcome State Fault Refusal :=
  finish (runSubWithBorrow x y s)
def execShiftRight (x : RegIdx) (s : State) : Host.Outcome State Fault Refusal := finish (runShiftRight x s)
def execSubWithBorrowReversed (x y : RegIdx) (s : State) : Host.Outcome State Fault Refusal :=
  finish (runSubWithBorrowReversed x y s)
def execShiftLeft (x : RegIdx) (s : State) : Host.Outcome State Fault Refusal := finish (runShiftLeft x s)
def execRandomAnd (x : RegIdx) (kk : Byte) (s : State) : Host.Outcome State Fault Refusal :=
  finish (runRandomAnd x kk s)

end Sys2Proof.Machine
end

