-- ==== Sys2Proof/Machine/ControlFlow.lean ====
section
/-! DEFINITION. The control-transfer instructions (spec/41_control_flow.md R130 to R138). `run…` is the effect
with its directive (40_sequencer.md R113); `exec…` applies the directive. -/

namespace Sys2Proof.Machine

/-- ReturnSubroutine `00EE` (R130): StackUnderflow when SP is 0; SP is decremented and `STACK[SP]`, read with
the new SP and not masked, is the target. -/
def runReturnSubroutine (s : State) : Effect :=
  if s.sp.toNat = 0 then raise .stackUnderflow
  else if h : s.sp.toNat - 1 < Config.stackDepth then
    complete (s.setSp (s.sp - 1)) (.jump (s.stackEntry ⟨s.sp.toNat - 1, h⟩))
  else .refused (.stackPointerOutOfRange s.sp)

/-- JumpTo `1nnn` (R131). -/
def runJumpTo (nnn : Addr12) (s : State) : Effect := complete s (.jump (zextAddr nnn))

/-- CallSubroutine `2nnn` (R132): StackOverflow when SP is 16; `STACK[SP] <- pc + 2`, SP is incremented. -/
def runCallSubroutine (nnn : Addr12) (s : State) : Effect :=
  if s.sp.toNat = Config.stackDepth then raise .stackOverflow
  else if h : s.sp.toNat < Config.stackDepth then
    complete ((s.setStackEntry ⟨s.sp.toNat, h⟩ (s.pc + 2)).setSp (s.sp + 1)) (.jump (zextAddr nnn))
  else .refused (.stackPointerOutOfRange s.sp)

/-- SkipEqual `3xkk` (R133). -/
def runSkipEqual (x : RegIdx) (kk : Byte) (s : State) : Effect := complete s (skipIf (s.reg x == kk))

/-- SkipNotEqual `4xkk` (R134). -/
def runSkipNotEqual (x : RegIdx) (kk : Byte) (s : State) : Effect := complete s (skipIf (s.reg x != kk))

/-- SkipRegisterEqual `5xy0` (R135). -/
def runSkipRegisterEqual (x y : RegIdx) (s : State) : Effect := complete s (skipIf (s.reg x == s.reg y))

/-- SkipRegisterNotEqual `9xy0` (R136). -/
def runSkipRegisterNotEqual (x y : RegIdx) (s : State) : Effect := complete s (skipIf (s.reg x != s.reg y))

/-- JumpWithOffset `Bnnn` (R137): always `V[0]`, the sum not masked to 12 bits (D5; assumption log 8). -/
def runJumpWithOffset (nnn : Addr12) (s : State) : Effect :=
  complete s (.jump (zextByte (s.reg 0) + zextAddr nnn))

def execReturnSubroutine (s : State) : Host.Outcome State Fault Refusal := finish (runReturnSubroutine s)
def execJumpTo (nnn : Addr12) (s : State) : Host.Outcome State Fault Refusal := finish (runJumpTo nnn s)
def execCallSubroutine (nnn : Addr12) (s : State) : Host.Outcome State Fault Refusal :=
  finish (runCallSubroutine nnn s)
def execSkipEqual (x : RegIdx) (kk : Byte) (s : State) : Host.Outcome State Fault Refusal :=
  finish (runSkipEqual x kk s)
def execSkipNotEqual (x : RegIdx) (kk : Byte) (s : State) : Host.Outcome State Fault Refusal :=
  finish (runSkipNotEqual x kk s)
def execSkipRegisterEqual (x y : RegIdx) (s : State) : Host.Outcome State Fault Refusal :=
  finish (runSkipRegisterEqual x y s)
def execSkipRegisterNotEqual (x y : RegIdx) (s : State) : Host.Outcome State Fault Refusal :=
  finish (runSkipRegisterNotEqual x y s)
def execJumpWithOffset (nnn : Addr12) (s : State) : Host.Outcome State Fault Refusal :=
  finish (runJumpWithOffset nnn s)

end Sys2Proof.Machine
end

