-- ==== Sys2Proof/Machine/Display.lean ====
section
/-! DEFINITION. The display instructions (spec/44_display.md R200 to R203), Draw as the two loops of R201. -/

namespace Sys2Proof.Machine

/-- Clear `00E0` (R200). -/
def runClear (s : State) : Effect := complete s.clearDisplay .next

/-- A sprite bit 1 at a cell: VF becomes 1 if the cell is set, and the cell is inverted (R201). -/
def drawPixel (row : DispRow) (col : DispCol) (s : State) : State :=
  if s.cell row col then (s.setFlag true).setCell row col false else s.setCell row col true

/-- The bit at column offset `c` of the sprite row `sprite`, placed on display row `row` (R201): a sprite bit 0
leaves the cell alone. -/
def drawBit (a : Byte) (row : DispRow) (sprite : Byte) (s : State) (c : Nat) : State :=
  if spriteBit sprite c then drawPixel row (displayCol a c) s else s

/-- Sprite row `r`: its byte is read from `MEM[I + r]` and its 8 bits are drawn (R201). -/
def drawSpriteRow (a b : Byte) (s : State) (r : Nat) : State :=
  (List.range 8).foldl (drawBit a (displayRow b r) (s.memRead (s.ea r))) s

/-- The `n` sprite rows (R201). -/
def drawSprite (a b : Byte) (n : Nat) (s : State) : State := (List.range n).foldl (drawSpriteRow a b) s

/-- Draw `Dxyn` (R201): the coordinates are read before VF is reset (42_alu.md R150); the range is checked
before anything changes; `n` = 0 accesses nothing. -/
def runDraw (x y : RegIdx) (n : Nat) (s : State) : Effect :=
  checkRange s n (complete (drawSprite (s.reg x) (s.reg y) n (s.setFlag false)) .next)

def execClear (s : State) : Host.Outcome State Fault Refusal := finish (runClear s)
def execDraw (x y : RegIdx) (n : Nat) (s : State) : Host.Outcome State Fault Refusal := finish (runDraw x y n s)

end Sys2Proof.Machine
end

