-- ==== Sys2Proof/Machine/IndexMemory.lean ====
section
/-! DEFINITION. The address-register and memory instructions (spec/43_index_memory.md R180 to R186). All return
Next; the three that access memory check their range before any effect (20_memory.md R57). -/

namespace Sys2Proof.Machine

/-- SetAddressRegister `Annn` (R180). -/
def runSetAddressRegister (nnn : Addr12) (s : State) : Effect := complete (s.setI (zextAddr nnn)) .next

/-- AddToAddressRegister `Fx1E` (R181): modulo 65536, not masked (D6; assumption log 9), VF not written. -/
def runAddToAddressRegister (x : RegIdx) (s : State) : Effect :=
  complete (s.setI (s.i + zextByte (s.reg x))) .next

/-- SetAddressToGlyph `Fx29` (R182). -/
def runSetAddressToGlyph (x : RegIdx) (s : State) : Effect := complete (s.setI (glyphAddress (s.reg x))) .next

/-- The three stores of StoreBCD, in order (R183). -/
def storeDigits (a : Byte) (s : State) : State :=
  ((s.memWrite (s.ea 0) (hundredsDigit a)).memWrite (s.ea 1) (tensDigit a)).memWrite (s.ea 2) (onesDigit a)

/-- StoreBCD `Fx33` (R183). -/
def runStoreBCD (x : RegIdx) (s : State) : Effect :=
  checkRange s 3 (complete (storeDigits (s.reg x) s) .next)

/-- The stores of StoreRegisterBlock, `MEM[I + i] <- V[i]` for `i` = 0 to `x` (R184). -/
def storeRegisters (x : RegIdx) (s : State) : State :=
  (registersUpTo x).foldl (fun t i => t.memWrite (s.ea i.val) (s.reg i)) s

/-- StoreRegisterBlock `Fx55` (R184): `I` unchanged (D7; assumption log 9). -/
def runStoreRegisterBlock (x : RegIdx) (s : State) : Effect :=
  checkRange s (x.val + 1) (complete (storeRegisters x s) .next)

/-- The loads of LoadRegisterBlock, `V[i] <- MEM[I + i]` for `i` = 0 to `x` (R185). -/
def loadRegisters (x : RegIdx) (s : State) : State :=
  (registersUpTo x).foldl (fun t i => t.setReg i (s.memRead (s.ea i.val))) s

/-- LoadRegisterBlock `Fx65` (R185): `I` unchanged (D7; assumption log 9). -/
def runLoadRegisterBlock (x : RegIdx) (s : State) : Effect :=
  checkRange s (x.val + 1) (complete (loadRegisters x s) .next)

def execSetAddressRegister (nnn : Addr12) (s : State) : Host.Outcome State Fault Refusal :=
  finish (runSetAddressRegister nnn s)
def execAddToAddressRegister (x : RegIdx) (s : State) : Host.Outcome State Fault Refusal :=
  finish (runAddToAddressRegister x s)
def execSetAddressToGlyph (x : RegIdx) (s : State) : Host.Outcome State Fault Refusal :=
  finish (runSetAddressToGlyph x s)
def execStoreBCD (x : RegIdx) (s : State) : Host.Outcome State Fault Refusal := finish (runStoreBCD x s)
def execStoreRegisterBlock (x : RegIdx) (s : State) : Host.Outcome State Fault Refusal :=
  finish (runStoreRegisterBlock x s)
def execLoadRegisterBlock (x : RegIdx) (s : State) : Host.Outcome State Fault Refusal :=
  finish (runLoadRegisterBlock x s)

end Sys2Proof.Machine
end

