-- ==== Sys2Proof/Machine/KeypadTimers.lean ====
section
/-! DEFINITION. The keypad and timer instructions (spec/45_keypad_timers.md R210 to R216). None can fault. -/

namespace Sys2Proof.Machine

/-- SkipIfKeyDown `Ex9E` (R210). -/
def runSkipIfKeyDown (x : RegIdx) (s : State) : Effect := complete s (skipIf (s.keyDownAt (s.reg x)))

/-- SkipIfKeyUp `ExA1` (R211). -/
def runSkipIfKeyUp (x : RegIdx) (s : State) : Effect := complete s (skipIf (!s.keyDownAt (s.reg x)))

/-- BlockForKey `Fx0A` (R212): the least key that is down goes to `V[x]`; with none down, Stay and no change. -/
def runBlockForKey (x : RegIdx) (s : State) : Effect :=
  match s.lowestKeyDown with
  | some k => complete (s.setReg x (keyByte k)) .next
  | none => complete s .stay

/-- ReadDelayTimer `Fx07` (R213). -/
def runReadDelayTimer (x : RegIdx) (s : State) : Effect := complete (s.setReg x s.dt) .next

/-- WriteDelayTimer `Fx15` (R214). -/
def runWriteDelayTimer (x : RegIdx) (s : State) : Effect := complete (s.setDt (s.reg x)) .next

/-- WriteSoundTimer `Fx18` (R215). -/
def runWriteSoundTimer (x : RegIdx) (s : State) : Effect := complete (s.setSt (s.reg x)) .next

def execSkipIfKeyDown (x : RegIdx) (s : State) : Host.Outcome State Fault Refusal := finish (runSkipIfKeyDown x s)
def execSkipIfKeyUp (x : RegIdx) (s : State) : Host.Outcome State Fault Refusal := finish (runSkipIfKeyUp x s)
def execBlockForKey (x : RegIdx) (s : State) : Host.Outcome State Fault Refusal := finish (runBlockForKey x s)
def execReadDelayTimer (x : RegIdx) (s : State) : Host.Outcome State Fault Refusal := finish (runReadDelayTimer x s)
def execWriteDelayTimer (x : RegIdx) (s : State) : Host.Outcome State Fault Refusal :=
  finish (runWriteDelayTimer x s)
def execWriteSoundTimer (x : RegIdx) (s : State) : Host.Outcome State Fault Refusal :=
  finish (runWriteSoundTimer x s)

end Sys2Proof.Machine
end

