-- ==== Sys2Proof/Machine/Dispatch.lean ====
section
/-! DEFINITION. One arm per instruction, in the order of the opcode table: each calls its own meaning. -/

namespace Sys2Proof.Machine

def exec (i : Instr) (s : State) : Host.Outcome State Fault Refusal :=
  match i with
  | .clear => Sys2Proof.Machine.execClear s
  | .returnSubroutine => Sys2Proof.Machine.execReturnSubroutine s
  | .jumpTo nnn => Sys2Proof.Machine.execJumpTo nnn s
  | .callSubroutine nnn => Sys2Proof.Machine.execCallSubroutine nnn s
  | .skipEqual x kk => Sys2Proof.Machine.execSkipEqual x kk s
  | .skipNotEqual x kk => Sys2Proof.Machine.execSkipNotEqual x kk s
  | .skipRegisterEqual x y => Sys2Proof.Machine.execSkipRegisterEqual x y s
  | .setRegister x kk => Sys2Proof.Machine.execSetRegister x kk s
  | .addRegister x kk => Sys2Proof.Machine.execAddRegister x kk s
  | .copyRegister x y => Sys2Proof.Machine.execCopyRegister x y s
  | .or x y => Sys2Proof.Machine.execOr x y s
  | .and x y => Sys2Proof.Machine.execAnd x y s
  | .xor x y => Sys2Proof.Machine.execXor x y s
  | .addWithCarry x y => Sys2Proof.Machine.execAddWithCarry x y s
  | .subWithBorrow x y => Sys2Proof.Machine.execSubWithBorrow x y s
  | .shiftRight x => Sys2Proof.Machine.execShiftRight x s
  | .subWithBorrowReversed x y => Sys2Proof.Machine.execSubWithBorrowReversed x y s
  | .shiftLeft x => Sys2Proof.Machine.execShiftLeft x s
  | .skipRegisterNotEqual x y => Sys2Proof.Machine.execSkipRegisterNotEqual x y s
  | .setAddressRegister nnn => Sys2Proof.Machine.execSetAddressRegister nnn s
  | .jumpWithOffset nnn => Sys2Proof.Machine.execJumpWithOffset nnn s
  | .randomAnd x kk => Sys2Proof.Machine.execRandomAnd x kk s
  | .draw x y n => Sys2Proof.Machine.execDraw x y n s
  | .skipIfKeyDown x => Sys2Proof.Machine.execSkipIfKeyDown x s
  | .skipIfKeyUp x => Sys2Proof.Machine.execSkipIfKeyUp x s
  | .readDelayTimer x => Sys2Proof.Machine.execReadDelayTimer x s
  | .blockForKey x => Sys2Proof.Machine.execBlockForKey x s
  | .writeDelayTimer x => Sys2Proof.Machine.execWriteDelayTimer x s
  | .writeSoundTimer x => Sys2Proof.Machine.execWriteSoundTimer x s
  | .addToAddressRegister x => Sys2Proof.Machine.execAddToAddressRegister x s
  | .setAddressToGlyph x => Sys2Proof.Machine.execSetAddressToGlyph x s
  | .storeBCD x => Sys2Proof.Machine.execStoreBCD x s
  | .storeRegisterBlock x => Sys2Proof.Machine.execStoreRegisterBlock x s
  | .loadRegisterBlock x => Sys2Proof.Machine.execLoadRegisterBlock x s

end Sys2Proof.Machine
end

