-- ==== Sys2Proof/Machine/Step.lean ====
section
/-! DEFINITION. One step (spec/40_sequencer.md R110): fetch, decode, execute with the directive applied. -/

namespace Sys2Proof.Machine

/-- The step: FetchOutOfRange first, then DecodeFailure, then the instruction's own outcome (R110, R239). -/
def step (s : State) : Host.Outcome State Fault Refusal :=
  match s.fetch with
  | .error f => raise f
  | .ok w =>
    match decodeWord w with
    | .instr i => exec i s
    | .invalid n0 n1 n2 n3 => raise (.decodeFailure n0 n1 n2 n3)

/-- The state with the opcode-table word `w` of `nbits` bits where the next step fetches: its two bytes at `pc`
and `pc + 1`. A `pc` from which no fetch is possible is first set to 0x200 (assumption log 18). -/
def State.withFetchWord (s : State) (nbits w : Nat) : State :=
  let t := if Config.lastAddress < s.pc.toNat + 1 then s.setPc (BitVec.ofNat 16 Config.progBase) else s
  let word : Word := BitVec.ofNat 16 (w % 2 ^ nbits)
  (t.memWrite t.pc.toNat (highByte word)).memWrite (t.pc.toNat + 1) (lowByte word)

end Sys2Proof.Machine
end

