-- ==== Sys2Proof/Machine/Execute.lean ====
section
/-! DEFINITION. Executing an instruction with its cursor directive (spec/40_sequencer.md R113), and the step as
the host's operation sees it, `Ok(cursor)` or a fault (R110, 60_exceptions.md R251). `exec` and `step` are these
with the directive applied (Laws/Step.lean). -/

namespace Sys2Proof.Machine

/-- The effect and the directive of an instruction (R113, R115). -/
def execute (i : Instr) (s : State) : Effect :=
  match i with
  | .clear => runClear s
  | .returnSubroutine => runReturnSubroutine s
  | .jumpTo nnn => runJumpTo nnn s
  | .callSubroutine nnn => runCallSubroutine nnn s
  | .skipEqual x kk => runSkipEqual x kk s
  | .skipNotEqual x kk => runSkipNotEqual x kk s
  | .skipRegisterEqual x y => runSkipRegisterEqual x y s
  | .setRegister x kk => runSetRegister x kk s
  | .addRegister x kk => runAddRegister x kk s
  | .copyRegister x y => runCopyRegister x y s
  | .or x y => runOr x y s
  | .and x y => runAnd x y s
  | .xor x y => runXor x y s
  | .addWithCarry x y => runAddWithCarry x y s
  | .subWithBorrow x y => runSubWithBorrow x y s
  | .shiftRight x => runShiftRight x s
  | .subWithBorrowReversed x y => runSubWithBorrowReversed x y s
  | .shiftLeft x => runShiftLeft x s
  | .skipRegisterNotEqual x y => runSkipRegisterNotEqual x y s
  | .setAddressRegister nnn => runSetAddressRegister nnn s
  | .jumpWithOffset nnn => runJumpWithOffset nnn s
  | .randomAnd x kk => runRandomAnd x kk s
  | .draw x y n => runDraw x y n s
  | .skipIfKeyDown x => runSkipIfKeyDown x s
  | .skipIfKeyUp x => runSkipIfKeyUp x s
  | .readDelayTimer x => runReadDelayTimer x s
  | .blockForKey x => runBlockForKey x s
  | .writeDelayTimer x => runWriteDelayTimer x s
  | .writeSoundTimer x => runWriteSoundTimer x s
  | .addToAddressRegister x => runAddToAddressRegister x s
  | .setAddressToGlyph x => runSetAddressToGlyph x s
  | .storeBCD x => runStoreBCD x s
  | .storeRegisterBlock x => runStoreRegisterBlock x s
  | .loadRegisterBlock x => runLoadRegisterBlock x s

/-- One step up to the application of the directive: fetch, decode, execute, checks in that order (R110, R239).
InvalidOpcode changes nothing and faults with its nibbles (R231). -/
def stepEffect (s : State) : Effect :=
  match s.fetch with
  | .error f => raise f
  | .ok w =>
    match decodeWord w with
    | .instr i => execute i s
    | .invalid n0 n1 n2 n3 => raise (.decodeFailure n0 n1 n2 n3)

end Sys2Proof.Machine
end

