-- ==== Sys2Proof/Machine/Boundary.lean ====
section
/-! DEFINITION. The boundary operations of the host (spec/60_exceptions.md R245 to R252, 70_reset_and_hazards.md
R270, R274), each one indivisible transition of the state with a result, sequences of them in one total order
(20_memory.md R63), and the lifecycle: the launch state of a program and the moves of a run (R273). -/

namespace Sys2Proof.Machine

/-- `key_down(k)` and `key_up(k)` (R246, R247): an index above 15 is rejected and changes nothing (R237). -/
def State.writeKey (s : State) (k : Nat) (down : Bool) : Except KeyError State :=
  if h : k < 16 then .ok (s.setKey ⟨k, h⟩ down) else .error (.outOfRangeKeyIndex k)

/-- A timer's decrement, floored at 0 (R248). -/
def tick (t : Byte) : Byte := if t = 0 then 0 else t - 1

/-- `tick_timers()` (R248): both timers, each on its own, and nothing else. -/
def State.tickTimers (s : State) : State := (s.setDt (tick s.dt)).setSt (tick s.st)

/-- What the host can read (R250): the memory image, the display, `pc` and both timers. -/
structure Snapshot where
  memory : List Byte
  display : Vector (Vector Bool 64) 32
  pc : Word
  dt : Byte
  st : Byte
  deriving DecidableEq, Repr

/-- Reading the snapshot (R250). -/
def State.snapshot (s : State) : Snapshot := ⟨s.mem.image, s.disp, s.pc, s.dt, s.st⟩

/-- The moves of the host (R245). -/
inductive BoundaryOp where
  | reset
  | load (program : List Byte)
  | step
  | keyDown (k : Nat)
  | keyUp (k : Nat)
  | tickTimers
  | snapshot
  deriving DecidableEq, Repr

/-- What a move returns (R245): nothing more than its completion, `Ok(cursor)` or a fault of a step (R251), the
rejection of a key index (R237), or the snapshot. -/
inductive BoundaryResult where
  | ok
  | cursor (c : Cursor)
  | fault (f : Fault)
  | refused (r : Refusal)
  | keyError (e : KeyError)
  | snapshot (view : Snapshot)
  deriving DecidableEq, Repr

/-- A step as a move: a fault returns its kind and recorded value and the state is exactly the state before
(R236, D10; assumption log 5). -/
def performStep (s : State) : State × BoundaryResult :=
  match stepEffect s with
  | .next (t, c) => (t.applyCursor c, .cursor c)
  | .fault f => (s, .fault f)
  | .refused r => (s, .refused r)

/-- `key_down` and `key_up` as moves. -/
def performKey (s : State) (k : Nat) (down : Bool) : State × BoundaryResult :=
  match s.writeKey k down with
  | .ok t => (t, .ok)
  | .error e => (s, .keyError e)

/-- One move of the host (R245, D18; assumption log 17). -/
def perform (op : BoundaryOp) (s : State) : State × BoundaryResult :=
  match op with
  | .reset => (State.reset, .ok)
  | .load program => (s.loadProgram program, .ok)
  | .step => performStep s
  | .keyDown k => performKey s k true
  | .keyUp k => performKey s k false
  | .tickTimers => (s.tickTimers, .ok)
  | .snapshot => (s, .snapshot s.snapshot)

/-- The state after a sequence of moves: any number of host operations between any two steps (R249). -/
def performAll : List BoundaryOp → State → State
  | [], s => s
  | op :: rest, s => performAll rest (perform op s).1

/-- The launch state of a program, the start of every run: reset, then one `load` (70_reset_and_hazards.md R273;
assumption log 15). -/
def launch (program : List Byte) : State := State.reset.loadProgram program

/-- The moves of a run after its launch (R273): steps, key operations, ticks and snapshot reads. A reset or a
second `load` is not part of the lifecycle. -/
def BoundaryOp.inRun : BoundaryOp → Bool
  | .reset => false
  | .load _ => false
  | .step => true
  | .keyDown _ => true
  | .keyUp _ => true
  | .tickTimers => true
  | .snapshot => true

/-- The numeric codes of the faults of a step, the spec's labels 1 to 5 (R230, D10). -/
def Fault.code : Fault → Nat
  | .decodeFailure _ _ _ _ => 1
  | .stackOverflow => 2
  | .stackUnderflow => 3
  | .fetchOutOfRange _ => 4
  | .memoryOutOfRange _ => 5

/-- The numeric code of the key error, the spec's label 6 (R230, D10). -/
def KeyError.code : KeyError → Nat
  | .outOfRangeKeyIndex _ => 6

end Sys2Proof.Machine
end

