-- ==== Sys2Proof/Safety.lean ====
section
/-! DEFINITION. What counts as a safe run: the invariant of the machine, the states of a
run, the states the host can reach at all, and a step that goes wrong nowhere. -/

namespace Sys2Proof.Machine

/-- The invariant: memory keeps its canonical form, the stack pointer counts at most 16 entries (10_state.md
R26), every stack entry is at most 0x1000 and `pc` at most 0x10FE (40_sequencer.md R117). -/
structure State.Inv (s : State) : Prop where
  mem_wf : s.mem.wf
  sp_le : s.sp.toNat ≤ 16
  stack_le : ∀ j : Fin 16, (s.stackEntry j).toNat ≤ 0x1000
  pc_le : s.pc.toNat ≤ 0x10FE

/-- The states of a run of a program (70_reset_and_hazards.md R273): any sequence of steps, key operations, ticks
and snapshot reads from the launch state, and no other move. -/
def RunState (program : List Byte) (s : State) : Prop :=
  ∃ ops : List BoundaryOp, (∀ op ∈ ops, op.inRun = true) ∧ s = performAll ops (launch program)

/-- The states the host can bring about at all: any sequence of its moves after reset, also the ones outside the
lifecycle (60_exceptions.md R249, R275). Every state of a run is one (Laws/Boundary.lean). -/
def Reachable (s : State) : Prop := ∃ ops : List BoundaryOp, s = performAll ops State.reset

/-- A step that completes: neither a fault nor a refusal (60_exceptions.md R240: a run that has returned a fault
has gone wrong). -/
def StepCompletes (s : State) : Prop := ∃ t, step s = .next t

/-- A run of steps in which every step completes. -/
def StepsComplete : Nat → State → Prop
  | 0, _ => True
  | k + 1, s => ∃ t, step s = .next t ∧ StepsComplete k t

end Sys2Proof.Machine
end

