-- ==== Sys2Proof/Certificates/Slice0/Obligations.lean ====
section
/-! DEFINITION. The statements about the machine. Numbers are written out (65536, 0x1000, `% 256`), so that a
statement says what the spec says and not what a helper of the model computes. -/

namespace Sys2Proof.Claims

open Sys2Proof.Machine

/-- Which parts of the state an instruction may change, beside `pc`. -/
structure Changed where
  regs : List RegIdx := []
  mem : Bool := false
  i : Bool := false
  dt : Bool := false
  st : Bool := false
  stack : Bool := false
  sp : Bool := false
  display : Bool := false
  random : Bool := false

/-- The frame: everything but `pc` and the parts named in `c` is as before, memory byte by byte, the display
cell by cell. No instruction may change the keypad. -/
def Frame (c : Changed) (s t : State) : Prop :=
  (∀ r : RegIdx, r ∉ c.regs → t.reg r = s.reg r) ∧
  (c.mem = false → ∀ a, t.mem.read a = s.mem.read a) ∧
  (c.i = false → t.i = s.i) ∧
  (c.dt = false → t.dt = s.dt) ∧
  (c.st = false → t.st = s.st) ∧
  (c.stack = false → ∀ j, t.stackEntry j = s.stackEntry j) ∧
  (c.sp = false → t.sp = s.sp) ∧
  (c.display = false → ∀ row col, t.cell row col = s.cell row col) ∧
  (∀ k, t.keyState k = s.keyState k) ∧
  (c.random = false → t.randDraws = s.randDraws)

/-- `pc` advanced by 2, the directive Next (40_sequencer.md R114). The modulus is the spec's decision D20 (log 8); no
run notices it. -/
def NextPc (s t : State) : Prop := t.pc.toNat = (s.pc.toNat + 2) % 65536

/-- `pc` advanced by 4, the directive Skip (R114; the modulus: D20, log 8). -/
def SkipPc (s t : State) : Prop := t.pc.toNat = (s.pc.toNat + 4) % 65536

/-- The word `n` decodes to `i`. -/
def Decodes (n : Nat) (i : Instr) : Prop := decodeWord (BitVec.ofNat 16 n) = .instr i

/-- The conditional skip: Skip when the condition holds and Next when it does not, and nothing but `pc` changes. -/
def SkipsExactlyWhen (i : Instr) (s : State) (condition : Prop) : Prop :=
  ∃ t, exec i s = .next t ∧ (condition → SkipPc s t) ∧ (¬condition → NextPc s t) ∧ Frame {} s t

/-- The bit of sprite row `r` at column offset `c`, the most significant bit at offset 0 (44_display.md R201). -/
def SpriteBitAt (s : State) (r c : Nat) : Bool := (s.mem.read (s.i.toNat + r)).getLsbD (7 - c)

/-- The display cell that bit `c` of sprite row `r` of Draw `x y` lands on (R201). -/
def LandsOn (s : State) (x y : RegIdx) (r c : Nat) (row : DispRow) (col : DispCol) : Prop :=
  row.val = ((s.reg y).toNat + r) % 32 ∧ col.val = ((s.reg x).toNat + c) % 64

/-- The parts of the state each instruction may change, beside `pc` (10_state.md R22 to R32). Some of its entries are
no plain words of the document: the destination of the copy and the logic operations (general knowledge G1, log 13),
that the logic operations leave VF (D23, log 13), that the block transfers leave `I` and `Fx1E` leaves VF (D7, D6,
log 9), that a return leaves the popped stack entry (D14, log 16). `random` is the model's own count (log 2). -/
def footprint : Instr → Changed
  | .clear => { display := true }
  | .returnSubroutine => { sp := true }
  | .callSubroutine _ => { stack := true, sp := true }
  | .jumpTo _ | .jumpWithOffset _ => {}
  | .skipEqual _ _ | .skipNotEqual _ _ | .skipRegisterEqual _ _ | .skipRegisterNotEqual _ _ => {}
  | .skipIfKeyDown _ | .skipIfKeyUp _ => {}
  | .setRegister x _ | .addRegister x _ | .copyRegister x _ => { regs := [x] }
  | .or x _ | .and x _ | .xor x _ => { regs := [x] }
  | .addWithCarry x _ | .subWithBorrow x _ | .subWithBorrowReversed x _ => { regs := [x, 15] }
  | .shiftRight x | .shiftLeft x => { regs := [x, 15] }
  | .randomAnd x _ => { regs := [x], random := true }
  | .setAddressRegister _ | .addToAddressRegister _ | .setAddressToGlyph _ => { i := true }
  | .storeBCD _ | .storeRegisterBlock _ => { mem := true }
  | .loadRegisterBlock x => { regs := (List.finRange 16).filter (· ≤ x) }
  | .draw _ _ _ => { regs := [15], display := true }
  | .readDelayTimer x | .blockForKey x => { regs := [x] }
  | .writeDelayTimer _ => { dt := true }
  | .writeSoundTimer _ => { st := true }

/-- How many bytes from `I` on the instruction stores (20_memory.md R55). -/
def storedBytes : Instr → Nat
  | .storeBCD _ => 3
  | .storeRegisterBlock x => x.val + 1
  | _ => 0

/-- The six instructions that write `VF` as a side effect (10_state.md R22), with their destination register,
if they have one. -/
def flagWriter : Instr → Bool
  | .addWithCarry _ _ | .subWithBorrow _ _ | .shiftRight _ | .subWithBorrowReversed _ _ | .shiftLeft _ => true
  | .draw _ _ _ => true
  | _ => false

/-- The registers an instruction names as its destination (10_state.md R21): `x`, or `V[0..x]` of `Fx65`. -/
def destinations : Instr → List RegIdx
  | .setRegister x _ | .addRegister x _ | .copyRegister x _ | .or x _ | .and x _ | .xor x _ => [x]
  | .addWithCarry x _ | .subWithBorrow x _ | .subWithBorrowReversed x _ | .shiftRight x | .shiftLeft x => [x]
  | .randomAnd x _ | .readDelayTimer x | .blockForKey x => [x]
  | .loadRegisterBlock x => (List.finRange 16).filter (· ≤ x)
  | _ => []

/-- Which directives an instruction may return (40_sequencer.md R115). -/
def MayReturn : Instr → Cursor → Prop
  | .returnSubroutine, c | .jumpTo _, c | .callSubroutine _, c | .jumpWithOffset _, c => ∃ target, c = .jump target
  | .skipEqual _ _, c | .skipNotEqual _ _, c => c = .skip ∨ c = .next
  | .skipRegisterEqual _ _, c | .skipRegisterNotEqual _ _, c => c = .skip ∨ c = .next
  | .skipIfKeyDown _, c | .skipIfKeyUp _, c => c = .skip ∨ c = .next
  | .blockForKey _, c => c = .stay ∨ c = .next
  | _, c => c = .next

/-- The two shifts, whose `y` nibble is ignored (30_encoding.md R89). -/
def isShift : Instr → Bool
  | .shiftRight _ | .shiftLeft _ => true
  | _ => false

/-- Two states that agree on everything but the stack entries at or above SP. -/
def AgreeBelowSp (s t : State) : Prop :=
  t.mem = s.mem ∧ t.v = s.v ∧ t.i = s.i ∧ t.dt = s.dt ∧ t.st = s.st ∧ t.pc = s.pc ∧ t.sp = s.sp ∧
  t.key = s.key ∧ t.disp = s.disp ∧ t.randDraws = s.randDraws ∧
  ∀ j : Fin 16, j.val < s.sp.toNat → t.stackEntry j = s.stackEntry j

end Sys2Proof.Claims

open Sys2Proof Sys2Proof.Machine Sys2Proof.Claims

/-! ### Encoding -/

/-- R91, first half: decoding the bytes of an encoded well-formed instruction gives it back, whatever follows. -/
def Obligations.DecodeInvertsEncode : Prop :=
  ∀ (i : Instr) (rest : List Byte), i.WellFormed → decodeBytes (encodeBytes i ++ rest) = .ok (i, rest)

/-- R91, second half, with R85: a decoded instruction is well formed and encodes to its word, but for the
dropped `y` nibble of the two shifts; the four nibbles of InvalidOpcode reproduce the word. -/
def Obligations.EncodeInvertsDecode : Prop :=
  ∀ w : Word, match decodeWord w with
    | .instr i => i.WellFormed ∧ encode i = if isShift i then w &&& 0xFF0F else w
    | .invalid n0 n1 n2 n3 => n0 ++ n1 ++ n2 ++ n3 = w

/-- R86: of the 34 rows of the map, a word decodes to a row's instruction, with the word's own fields, exactly when
`w & mask == match`, and to InvalidOpcode when it matches no row. -/
def Obligations.OpcodeMapDecidesDecoding : Prop :=
  opcodeTable.length = 34 ∧
  (∀ row ∈ opcodeTable, ∀ w : Word, decodeWord w = .instr (row.build w) ↔ w &&& row.mask = row.value) ∧
  (∀ w : Word, (∀ row ∈ opcodeTable, w &&& row.mask ≠ row.value) →
    decodeWord w = .invalid (w.extractLsb' 12 4) (w.extractLsb' 8 4) (w.extractLsb' 4 4) (w.extractLsb' 0 4))

/-- R87 (the spec's own derivation from R86): a word is invalid exactly when it is in one of the six sets. -/
def Obligations.InvalidWordsAreTheSixSets : Prop :=
  ∀ w : Word, (∀ i, decodeWord w ≠ .instr i) ↔
    (w.toNat / 0x1000 = 0 ∧ w.toNat ≠ 0x00E0 ∧ w.toNat ≠ 0x00EE) ∨
    (w.toNat / 0x1000 = 5 ∧ w.toNat % 16 ≠ 0) ∨
    (w.toNat / 0x1000 = 8 ∧ w.toNat % 16 ∈ [8, 9, 0xA, 0xB, 0xC, 0xD, 0xF]) ∨
    (w.toNat / 0x1000 = 9 ∧ w.toNat % 16 ≠ 0) ∨
    (w.toNat / 0x1000 = 0xE ∧ w.toNat % 256 ≠ 0x9E ∧ w.toNat % 256 ≠ 0xA1) ∨
    (w.toNat / 0x1000 = 0xF ∧ w.toNat % 256 ∉ [0x07, 0x0A, 0x15, 0x18, 0x1E, 0x29, 0x33, 0x55, 0x65])

/-- A sanity check on words written out from 95_test_vectors.md 2.1, one or more of each family. -/
def Obligations.WrittenOutWordsDecode : Prop :=
  Decodes 0x00E0 .clear ∧ Decodes 0x2ABC (.callSubroutine 0xABC) ∧ Decodes 0x3A7F (.skipEqual 0xA 0x7F) ∧
  Decodes 0x8AB6 (.shiftRight 0xA) ∧ Decodes 0x8AB7 (.subWithBorrowReversed 0xA 0xB) ∧
  Decodes 0xC30F (.randomAnd 3 0x0F) ∧ Decodes 0xDFF0 (.draw 0xF 0xF 0) ∧ Decodes 0xE1A1 (.skipIfKeyUp 1) ∧
  Decodes 0xF265 (.loadRegisterBlock 2) ∧ decodeWord 0xF056 = .invalid 0xF 0 5 6

/-! ### The step -/

/-- R110, R111: when `pc` is at most 0xFFE, odd or even (the spec's decision D3, log 6), and the two bytes there
decode to an instruction, the step is that instruction's execution at this state, the first byte being the more
significant. -/
def Obligations.StepRunsTheDecodedInstruction : Prop :=
  ∀ (s : State) (i : Instr), s.pc.toNat ≤ 0xFFE →
    decodeBytes [s.mem.read s.pc.toNat, s.mem.read (s.pc.toNat + 1)] = .ok (i, []) → step s = exec i s

/-- R234 (the spec's decision D3, log 6) and R231: a step with `pc` above 0xFFE faults with `pc`, whatever the
memory holds; a step at an invalid word faults with the four nibbles of the two bytes. -/
def Obligations.StepFaultsBeforeExecution : Prop :=
  ∀ s : State, (0xFFE < s.pc.toNat → step s = .fault (.fetchOutOfRange s.pc)) ∧
    ∀ hi lo : Byte, s.pc.toNat ≤ 0xFFE → s.mem.read s.pc.toNat = hi → s.mem.read (s.pc.toNat + 1) = lo →
      (∀ row ∈ opcodeTable, (hi ++ lo) &&& row.mask ≠ row.value) →
      step s = .fault (.decodeFailure (BitVec.ofNat 4 (hi.toNat / 16)) (BitVec.ofNat 4 (hi.toNat % 16))
        (BitVec.ofNat 4 (lo.toNat / 16)) (BitVec.ofNat 4 (lo.toNat % 16)))

/-- About the model's own `withFetchWord` (log 18, DESIGN CHOICE), no operation of the hardware: the word it places
is the instruction the next step runs. With `pc` above 0xFFE, where the hardware fetches nothing, `withFetchWord`
first moves `pc` to 0x200. That a step then runs the placed bytes is R110 and R111. -/
def Obligations.PlacedWordIsTheInstructionRun : Prop :=
  ∀ (s : State) (i : Instr), i.WellFormed →
    step (s.withFetchWord 16 (encode i).toNat) = exec i (s.withFetchWord 16 (encode i).toNat)

/-- R251, R114, R236 (D10, log 5), R240: as the host's operation, a completing step returns Ok of the directive
that gave the new `pc`; a faulting step returns the fault, leaves the state exactly as it was, and faults the
same way again. The third clause is the model's own (log 4, DESIGN CHOICE): a refused step, which no run takes,
returns the refusal and leaves the state. -/
def Obligations.StepResultIsPrecise : Prop :=
  ∀ s : State,
    (∀ t, step s = .next t → ∃ c, perform .step s = (t, .cursor c) ∧
      t.pc = match c with
        | .stay => s.pc
        | .next => s.pc + 2
        | .skip => s.pc + 4
        | .jump target => target) ∧
    (∀ f, step s = .fault f → perform .step s = (s, .fault f) ∧ perform .step (perform .step s).1 = (s, .fault f)) ∧
    (∀ r, step s = .refused r → perform .step s = (s, .refused r))

/-- R115, R113 (the spec's own derivation from R114): which directives each instruction returns, `pc` being
untouched until the directive is applied. -/
def Obligations.DirectivesFollowTheTable : Prop :=
  ∀ (i : Instr) (s t : State) (c : Cursor), execute i s = .next (t, c) →
    MayReturn i c ∧ t.pc = s.pc ∧ exec i s = .next (t.applyCursor c)

/-! ### Control flow -/

/-- R130 (stack indices: D14, log 16; not masked: D19, log 8): the return, its underflow, and the model's own refusal
for an unreachable SP (log 4). -/
def Obligations.ReturnPopsTheStack : Prop :=
  Decodes 0x00EE .returnSubroutine ∧ ∀ s : State,
    (s.sp.toNat = 0 → exec .returnSubroutine s = .fault .stackUnderflow) ∧
    (∀ j : Fin 16, s.sp.toNat = j.val + 1 → ∃ t, exec .returnSubroutine s = .next t ∧
      t.sp.toNat = j.val ∧ t.pc = s.stackEntry j ∧ Frame { sp := true } s t) ∧
    (16 < s.sp.toNat → exec .returnSubroutine s = .refused (.stackPointerOutOfRange s.sp))

/-- R131: JumpTo sets `pc` to `nnn` and changes nothing else; at the one target from which no fetch is possible the
next step faults (FetchOutOfRange is the spec's decision D3, log 6). -/
def Obligations.JumpToSetsPc : Prop :=
  ∀ (nnn : Addr12) (s : State), Decodes (0x1000 + nnn.toNat) (.jumpTo nnn) ∧
    ∃ t, exec (.jumpTo nnn) s = .next t ∧ t.pc.toNat = nnn.toNat ∧ Frame {} s t ∧
      (nnn.toNat = 0xFFF → step t = .fault (.fetchOutOfRange t.pc))

/-- R132 (stack indices: D14, log 16): the call, its overflow, and the model's own refusal for an unreachable SP
(log 4). -/
def Obligations.CallPushesTheReturnAddress : Prop :=
  ∀ (nnn : Addr12) (s : State), Decodes (0x2000 + nnn.toNat) (.callSubroutine nnn) ∧
    (s.sp.toNat = 16 → exec (.callSubroutine nnn) s = .fault .stackOverflow) ∧
    (∀ j : Fin 16, s.sp.toNat = j.val → ∃ t, exec (.callSubroutine nnn) s = .next t ∧
      (t.stackEntry j).toNat = (s.pc.toNat + 2) % 65536 ∧ (∀ k, k ≠ j → t.stackEntry k = s.stackEntry k) ∧
      t.sp.toNat = j.val + 1 ∧ t.pc.toNat = nnn.toNat ∧ Frame { stack := true, sp := true } s t) ∧
    (16 < s.sp.toNat → exec (.callSubroutine nnn) s = .refused (.stackPointerOutOfRange s.sp))

/-- R133, R134: the skips that compare a register with an immediate. -/
def Obligations.SkipOnImmediate : Prop :=
  ∀ (x : RegIdx) (kk : Byte) (s : State),
    Decodes (0x3000 + 0x100 * x.val + kk.toNat) (.skipEqual x kk) ∧
    SkipsExactlyWhen (.skipEqual x kk) s (s.reg x = kk) ∧
    Decodes (0x4000 + 0x100 * x.val + kk.toNat) (.skipNotEqual x kk) ∧
    SkipsExactlyWhen (.skipNotEqual x kk) s (s.reg x ≠ kk)

/-- R135, R136: the skips that compare two registers; their words with another last nibble than 0 are invalid. -/
def Obligations.SkipOnRegisters : Prop :=
  ∀ (x y : RegIdx) (s : State),
    Decodes (0x5000 + 0x100 * x.val + 0x10 * y.val) (.skipRegisterEqual x y) ∧
    SkipsExactlyWhen (.skipRegisterEqual x y) s (s.reg x = s.reg y) ∧
    Decodes (0x9000 + 0x100 * x.val + 0x10 * y.val) (.skipRegisterNotEqual x y) ∧
    SkipsExactlyWhen (.skipRegisterNotEqual x y) s (s.reg x ≠ s.reg y) ∧
    ∀ n i, 0 < n → n < 16 → ¬Decodes (0x5000 + 0x100 * x.val + 0x10 * y.val + n) i ∧
      ¬Decodes (0x9000 + 0x100 * x.val + 0x10 * y.val + n) i

/-- R137 (not masked: D5, log 8): the target is `V[0] + nnn`, at most 0x10FE, and nothing else changes. -/
def Obligations.JumpWithOffsetAddsV0 : Prop :=
  ∀ (nnn : Addr12) (s : State), Decodes (0xB000 + nnn.toNat) (.jumpWithOffset nnn) ∧
    ∃ t, exec (.jumpWithOffset nnn) s = .next t ∧ t.pc.toNat = (s.reg 0).toNat + nnn.toNat ∧ Frame {} s t

/-- The document's scenario S10 for every state, from R130 and R132 (stack indices: D14, log 16; the sum modulo
65536: D20, log 8): a call followed by a return leads to the instruction after the call, with SP and everything but
the pushed stack entry as before. The entry pushed is the one numbered by the SP before the call. -/
def Obligations.ReturnUndoesCall : Prop :=
  ∀ (nnn : Addr12) (s t : State), exec (.callSubroutine nnn) s = .next t →
    ∃ u, exec .returnSubroutine t = .next u ∧ NextPc s u ∧ Frame { stack := true } s u ∧
      ∀ j : Fin 16, j.val ≠ s.sp.toNat → u.stackEntry j = s.stackEntry j

/-- R118 (D22, log 20): a JumpTo to its own address steps to the same state. -/
def Obligations.SelfJumpChangesNothing : Prop :=
  ∀ (s : State) (nnn : Addr12), s.pc.toNat = nnn.toNat → nnn.toNat ≤ 0xFFE →
    decodeBytes [s.mem.read nnn.toNat, s.mem.read (nnn.toNat + 1)] = .ok (.jumpTo nnn, []) → step s = .next s

/-! ### Registers and arithmetic -/

/-- R151: SetRegister writes the immediate and nothing else. -/
def Obligations.SetRegisterWritesTheImmediate : Prop :=
  ∀ (x : RegIdx) (kk : Byte) (s : State), Decodes (0x6000 + 0x100 * x.val + kk.toNat) (.setRegister x kk) ∧
    ∃ t, exec (.setRegister x kk) s = .next t ∧ t.reg x = kk ∧ NextPc s t ∧ Frame { regs := [x] } s t

/-- R152: AddRegister adds modulo 256 and does not write VF (but as its destination). -/
def Obligations.AddRegisterWrapsWithoutFlag : Prop :=
  ∀ (x : RegIdx) (kk : Byte) (s : State), Decodes (0x7000 + 0x100 * x.val + kk.toNat) (.addRegister x kk) ∧
    ∃ t, exec (.addRegister x kk) s = .next t ∧ (t.reg x).toNat = ((s.reg x).toNat + kk.toNat) % 256 ∧
      NextPc s t ∧ Frame { regs := [x] } s t

/-- R153 (the direction is general knowledge, G1, log 13): CopyRegister copies `V[y]` into `V[x]`. -/
def Obligations.CopyRegisterCopiesYToX : Prop :=
  ∀ (x y : RegIdx) (s : State), Decodes (0x8000 + 0x100 * x.val + 0x10 * y.val) (.copyRegister x y) ∧
    ∃ t, exec (.copyRegister x y) s = .next t ∧ t.reg x = s.reg y ∧ NextPc s t ∧ Frame { regs := [x] } s t

/-- R154 to R156 (destination: general knowledge, G1; VF not written: D23; log 13): the logic operations bit by
bit. -/
def Obligations.LogicOperationsBitByBit : Prop :=
  ∀ (x y : RegIdx) (s : State),
    (Decodes (0x8001 + 0x100 * x.val + 0x10 * y.val) (.or x y) ∧
      ∃ t, exec (.or x y) s = .next t ∧ NextPc s t ∧ Frame { regs := [x] } s t ∧
      ∀ k < 8, (t.reg x).getLsbD k = ((s.reg x).getLsbD k || (s.reg y).getLsbD k)) ∧
    (Decodes (0x8002 + 0x100 * x.val + 0x10 * y.val) (.and x y) ∧
      ∃ t, exec (.and x y) s = .next t ∧ NextPc s t ∧ Frame { regs := [x] } s t ∧
      ∀ k < 8, (t.reg x).getLsbD k = ((s.reg x).getLsbD k && (s.reg y).getLsbD k)) ∧
    (Decodes (0x8003 + 0x100 * x.val + 0x10 * y.val) (.xor x y) ∧
      ∃ t, exec (.xor x y) s = .next t ∧ NextPc s t ∧ Frame { regs := [x] } s t ∧
      ∀ k < 8, (t.reg x).getLsbD k = ((s.reg x).getLsbD k != (s.reg y).getLsbD k))

/-- R157: the carry law. With `x` = F the sum and not the carry remains (R150, the spec's decision D8, log 10). -/
def Obligations.AddWithCarryLaw : Prop :=
  ∀ (x y : RegIdx) (s : State), Decodes (0x8004 + 0x100 * x.val + 0x10 * y.val) (.addWithCarry x y) ∧
    ∃ t, exec (.addWithCarry x y) s = .next t ∧
      (t.reg x).toNat = ((s.reg x).toNat + (s.reg y).toNat) % 256 ∧
      (x ≠ 15 → (t.reg 15).toNat = if (s.reg x).toNat + (s.reg y).toNat > 255 then 1 else 0) ∧
      NextPc s t ∧ Frame { regs := [x, 15] } s t

/-- R158, R160: the borrow law of both subtractions, the comparison strict. With `x` = F the difference and not
the flag remains (R150, the spec's decision D8, log 10). -/
def Obligations.SubtractionLaws : Prop :=
  ∀ (x y : RegIdx) (s : State),
    (Decodes (0x8005 + 0x100 * x.val + 0x10 * y.val) (.subWithBorrow x y) ∧
      ∃ t, exec (.subWithBorrow x y) s = .next t ∧
        (t.reg x).toNat = ((s.reg x).toNat + 256 - (s.reg y).toNat) % 256 ∧
        (x ≠ 15 → (t.reg 15).toNat = if (s.reg x).toNat > (s.reg y).toNat then 1 else 0) ∧
        NextPc s t ∧ Frame { regs := [x, 15] } s t) ∧
    (Decodes (0x8007 + 0x100 * x.val + 0x10 * y.val) (.subWithBorrowReversed x y) ∧
      ∃ t, exec (.subWithBorrowReversed x y) s = .next t ∧
        (t.reg x).toNat = ((s.reg y).toNat + 256 - (s.reg x).toNat) % 256 ∧
        (x ≠ 15 → (t.reg 15).toNat = if (s.reg y).toNat > (s.reg x).toNat then 1 else 0) ∧
        NextPc s t ∧ Frame { regs := [x, 15] } s t)

/-- R159, R161, R89: the shifts by one, for every value of the ignored `y` nibble. With `x` = F the shifted value
and not the bit shifted out remains (R150, the spec's decision D8, log 10). -/
def Obligations.ShiftLaws : Prop :=
  ∀ (x y : RegIdx) (s : State),
    (Decodes (0x8006 + 0x100 * x.val + 0x10 * y.val) (.shiftRight x) ∧
      ∃ t, exec (.shiftRight x) s = .next t ∧ (t.reg x).toNat = (s.reg x).toNat / 2 ∧
        (x ≠ 15 → (t.reg 15).toNat = (s.reg x).toNat % 2) ∧ NextPc s t ∧ Frame { regs := [x, 15] } s t) ∧
    (Decodes (0x800E + 0x100 * x.val + 0x10 * y.val) (.shiftLeft x) ∧
      ∃ t, exec (.shiftLeft x) s = .next t ∧ (t.reg x).toNat = 2 * (s.reg x).toNat % 256 ∧
        (x ≠ 15 → (t.reg 15).toNat = (s.reg x).toNat / 128) ∧ NextPc s t ∧ Frame { regs := [x, 15] } s t)

/-- R162, R34: RandomAnd masks the byte drawn and consumes exactly one. The byte is the free value of log 2; the
statement holds whatever it is, and says which results are possible. -/
def Obligations.RandomAndMasksOneByte : Prop :=
  ∀ (x : RegIdx) (kk : Byte) (s : State), Decodes (0xC000 + 0x100 * x.val + kk.toNat) (.randomAnd x kk) ∧
    ∃ t, exec (.randomAnd x kk) s = .next t ∧ t.reg x = s.randByte &&& kk ∧ t.reg x &&& kk = t.reg x ∧
      t.randDraws = s.randDraws + 1 ∧ NextPc s t ∧ Frame { regs := [x], random := true } s t

/-! ### The address register and memory -/

/-- R180: SetAddressRegister writes the 12-bit value. -/
def Obligations.SetAddressRegisterWritesNnn : Prop :=
  ∀ (nnn : Addr12) (s : State), Decodes (0xA000 + nnn.toNat) (.setAddressRegister nnn) ∧
    ∃ t, exec (.setAddressRegister nnn) s = .next t ∧ t.i.toNat = nnn.toNat ∧ NextPc s t ∧ Frame { i := true } s t

/-- R181 (D6, log 9): the sum modulo 65536, not masked, VF not written. -/
def Obligations.AddToAddressRegisterWraps : Prop :=
  ∀ (x : RegIdx) (s : State), Decodes (0xF01E + 0x100 * x.val) (.addToAddressRegister x) ∧
    ∃ t, exec (.addToAddressRegister x) s = .next t ∧ t.i.toNat = (s.i.toNat + (s.reg x).toNat) % 65536 ∧
      NextPc s t ∧ Frame { i := true } s t

/-- R182 (no reduction to a nibble: D11, log 14): `I` becomes `5 * V[x]`. -/
def Obligations.SetAddressToGlyphMultipliesByFive : Prop :=
  ∀ (x : RegIdx) (s : State), Decodes (0xF029 + 0x100 * x.val) (.setAddressToGlyph x) ∧
    ∃ t, exec (.setAddressToGlyph x) s = .next t ∧ t.i.toNat = 5 * (s.reg x).toNat ∧ NextPc s t ∧
      Frame { i := true } s t

/-- R183 (range check: D4, log 7): the three decimal digits go to `I`, `I+1`, `I+2`, every other byte stays, or
the fault with the highest address. -/
def Obligations.StoreBCDStoresTheDigits : Prop :=
  ∀ (x : RegIdx) (s : State), Decodes (0xF033 + 0x100 * x.val) (.storeBCD x) ∧
    (0xFFF < s.i.toNat + 2 → exec (.storeBCD x) s = .fault (.memoryOutOfRange (s.i.toNat + 2))) ∧
    (s.i.toNat + 2 ≤ 0xFFF → ∃ t, exec (.storeBCD x) s = .next t ∧
      (t.mem.read s.i.toNat).toNat = (s.reg x).toNat / 100 ∧
      (t.mem.read (s.i.toNat + 1)).toNat = (s.reg x).toNat / 10 % 10 ∧
      (t.mem.read (s.i.toNat + 2)).toNat = (s.reg x).toNat % 10 ∧
      (∀ a, a < s.i.toNat ∨ s.i.toNat + 2 < a → t.mem.read a = s.mem.read a) ∧
      NextPc s t ∧ Frame { mem := true } s t)

/-- R184 (range check: D4, log 7; `I` unchanged: D7, log 9): `V[0..x]` go to `MEM[I..I+x]`, every other byte
stays, or the fault with the highest address. -/
def Obligations.StoreRegisterBlockStoresInOrder : Prop :=
  ∀ (x : RegIdx) (s : State), Decodes (0xF055 + 0x100 * x.val) (.storeRegisterBlock x) ∧
    (0xFFF < s.i.toNat + x.val →
      exec (.storeRegisterBlock x) s = .fault (.memoryOutOfRange (s.i.toNat + x.val))) ∧
    (s.i.toNat + x.val ≤ 0xFFF → ∃ t, exec (.storeRegisterBlock x) s = .next t ∧
      (∀ k : RegIdx, k ≤ x → t.mem.read (s.i.toNat + k.val) = s.reg k) ∧
      (∀ a, a < s.i.toNat ∨ s.i.toNat + x.val < a → t.mem.read a = s.mem.read a) ∧
      NextPc s t ∧ Frame { mem := true } s t)

/-- R185 (range check: D4, log 7; `I` unchanged: D7, log 9): `MEM[I..I+x]` go to `V[0..x]`, the registers above
stay, or the fault with the highest address. -/
def Obligations.LoadRegisterBlockLoadsInOrder : Prop :=
  ∀ (x : RegIdx) (s : State), Decodes (0xF065 + 0x100 * x.val) (.loadRegisterBlock x) ∧
    (0xFFF < s.i.toNat + x.val →
      exec (.loadRegisterBlock x) s = .fault (.memoryOutOfRange (s.i.toNat + x.val))) ∧
    (s.i.toNat + x.val ≤ 0xFFF → ∃ t, exec (.loadRegisterBlock x) s = .next t ∧
      (∀ k : RegIdx, k ≤ x → t.reg k = s.mem.read (s.i.toNat + k.val)) ∧
      NextPc s t ∧ Frame { regs := (List.finRange 16).filter (· ≤ x) } s t)

/-- R65: the bytes a StoreRegisterBlock puts where the next step fetches, at an odd address too (D3, log 6), are the
instruction that step runs. -/
def Obligations.StoreIsSeenByTheNextFetch : Prop :=
  ∀ (x k k' : RegIdx) (s t : State) (i : Instr), exec (.storeRegisterBlock x) s = .next t →
    s.i.toNat + k.val = s.pc.toNat + 2 → k'.val = k.val + 1 → k' ≤ x →
    decodeBytes [s.reg k, s.reg k'] = .ok (i, []) → step t = exec i t

/-- Memories in canonical form that read the same are the same data (the model's representation of R30). -/
def Obligations.CanonicalMemoriesAreEqualData : Prop :=
  ∀ m m' : Memory, m.wf → m'.wf → (∀ a < 4096, m.read a = m'.read a) → m = m'

/-! ### Display -/

/-- R200: Clear makes every cell false and writes nothing else, VF not either. -/
def Obligations.ClearEmptiesTheDisplay : Prop :=
  Decodes 0x00E0 .clear ∧ ∀ s : State, ∃ t, exec .clear s = .next t ∧ (∀ row col, t.cell row col = false) ∧
    NextPc s t ∧ Frame { display := true } s t

/-- R201 (coordinates read before VF is reset: D8, log 10): Draw as the two loops equals the cell-by-cell
exclusive or, with wrap-around on both axes, and VF tells whether a set cell met a set bit. -/
def Obligations.DrawXorsTheSprite : Prop :=
  ∀ (x y : RegIdx) (n : Nat) (s : State), n < 16 → (0 < n → s.i.toNat + (n - 1) ≤ 0xFFF) →
    ∃ t, exec (.draw x y n) s = .next t ∧
      (∀ r < n, ∀ c < 8, ∀ row col, LandsOn s x y r c row col →
        t.cell row col = (s.cell row col ^^ SpriteBitAt s r c)) ∧
      (∀ row col, (∀ r < n, ∀ c < 8, ¬LandsOn s x y r c row col) → t.cell row col = s.cell row col) ∧
      ((∃ r < n, ∃ c < 8, ∃ row col, LandsOn s x y r c row col ∧ SpriteBitAt s r c = true ∧
        s.cell row col = true) → t.reg 15 = 1) ∧
      ((∀ r < n, ∀ c < 8, ∀ row col, LandsOn s x y r c row col → SpriteBitAt s r c = true →
        s.cell row col = false) → t.reg 15 = 0) ∧
      NextPc s t ∧ Frame { regs := [15], display := true } s t

/-- R201, R57 (D4, log 7): Draw with rows faults when its highest address is above 0xFFF; with no row it never
does, whatever `I` holds, and only resets VF. The word's fields go to their operands. -/
def Obligations.DrawRangeCheck : Prop :=
  ∀ (x y : RegIdx) (n : Nat) (s : State), n < 16 →
    Decodes (0xD000 + 0x100 * x.val + 0x10 * y.val + n) (.draw x y n) ∧
    (0 < n → 0xFFF < s.i.toNat + (n - 1) →
      exec (.draw x y n) s = .fault (.memoryOutOfRange (s.i.toNat + (n - 1)))) ∧
    (n = 0 → ∃ t, exec (.draw x y n) s = .next t ∧ t.reg 15 = 0 ∧ NextPc s t ∧ Frame { regs := [15] } s t)

/-- R202 (b) (the spec's own derivation from R201): the same Draw twice restores the display; if the cells under
the sprite's set bits were clear and there is one, the second Draw reports the collision. The coordinates are not
in VF, which the first Draw writes. -/
def Obligations.DrawTwiceRestoresTheDisplay : Prop :=
  ∀ (x y : RegIdx) (n : Nat) (s t : State), x ≠ 15 → y ≠ 15 → n < 16 → exec (.draw x y n) s = .next t →
    ∃ u, exec (.draw x y n) t = .next u ∧ (∀ row col, u.cell row col = s.cell row col) ∧
      ((∀ r < n, ∀ c < 8, ∀ row col, LandsOn s x y r c row col → SpriteBitAt s r c = true →
          s.cell row col = false) →
        (∃ r < n, ∃ c < 8, SpriteBitAt s r c = true) → u.reg 15 = 1)

/-! ### Keypad and timers -/

/-- R210, R211 (an index above 15 is not pressed: D9, log 11): the key skips. -/
def Obligations.KeySkips : Prop :=
  ∀ (x : RegIdx) (s : State),
    Decodes (0xE09E + 0x100 * x.val) (.skipIfKeyDown x) ∧
    SkipsExactlyWhen (.skipIfKeyDown x) s (∃ k : KeyIdx, k.val = (s.reg x).toNat ∧ s.keyState k = true) ∧
    Decodes (0xE0A1 + 0x100 * x.val) (.skipIfKeyUp x) ∧
    SkipsExactlyWhen (.skipIfKeyUp x) s (¬∃ k : KeyIdx, k.val = (s.reg x).toNat ∧ s.keyState k = true)

/-- R212: BlockForKey takes the least key that is down, and with none down the step changes nothing at all. -/
def Obligations.BlockForKeyTakesTheLowestKey : Prop :=
  ∀ (x : RegIdx) (s : State), Decodes (0xF00A + 0x100 * x.val) (.blockForKey x) ∧
    ((∀ k, s.keyState k = false) → exec (.blockForKey x) s = .next s) ∧
    (∀ k : KeyIdx, s.keyState k = true → (∀ j, j < k → s.keyState j = false) →
      ∃ t, exec (.blockForKey x) s = .next t ∧ (t.reg x).toNat = k.val ∧ NextPc s t ∧ Frame { regs := [x] } s t)

/-- R213: ReadDelayTimer copies DT and leaves it. -/
def Obligations.ReadDelayTimerCopiesDT : Prop :=
  ∀ (x : RegIdx) (s : State), Decodes (0xF007 + 0x100 * x.val) (.readDelayTimer x) ∧
    ∃ t, exec (.readDelayTimer x) s = .next t ∧ t.reg x = s.dt ∧ NextPc s t ∧ Frame { regs := [x] } s t

/-- R214, R215 (by the document's sentence that R213 quotes): the timer writes copy `V[x]` into the one timer each
names. -/
def Obligations.TimerWritesCopyTheRegister : Prop :=
  ∀ (x : RegIdx) (s : State),
    (Decodes (0xF015 + 0x100 * x.val) (.writeDelayTimer x) ∧
      ∃ t, exec (.writeDelayTimer x) s = .next t ∧ t.dt = s.reg x ∧ NextPc s t ∧ Frame { dt := true } s t) ∧
    (Decodes (0xF018 + 0x100 * x.val) (.writeSoundTimer x) ∧
      ∃ t, exec (.writeSoundTimer x) s = .next t ∧ t.st = s.reg x ∧ NextPc s t ∧ Frame { st := true } s t)

/-! ### The whole machine -/

/-- R230, R57 (D4, log 7): which instructions fault, exactly when and with what; every other one never does. -/
def Obligations.FaultsAreExactlyThoseListed : Prop :=
  ∀ (i : Instr) (s : State) (f : Fault), exec i s = .fault f ↔
    (i = .returnSubroutine ∧ s.sp.toNat = 0 ∧ f = .stackUnderflow) ∨
    (∃ nnn, i = .callSubroutine nnn ∧ s.sp.toNat = 16 ∧ f = .stackOverflow) ∨
    (∃ x y n, i = .draw x y n ∧ 0 < n ∧ 0xFFF < s.i.toNat + (n - 1) ∧
      f = .memoryOutOfRange (s.i.toNat + (n - 1))) ∨
    (∃ x, i = .storeBCD x ∧ 0xFFF < s.i.toNat + 2 ∧ f = .memoryOutOfRange (s.i.toNat + 2)) ∨
    (∃ x, (i = .storeRegisterBlock x ∨ i = .loadRegisterBlock x) ∧ 0xFFF < s.i.toNat + x.val ∧
      f = .memoryOutOfRange (s.i.toNat + x.val))

/-- R21 to R32: whatever instruction completes, only the parts of its footprint change. The footprint holds choices
that the document leaves open: the destinations of the copy and the logic operations are general knowledge (G1, log
13), the logic operations leave VF (D23, log 13), the block transfers leave `I` and `Fx1E` leaves VF (D7, D6, log 9),
a return leaves the popped stack entry (D14, log 16). The count of random draws is the model's own field (log 2). -/
def Obligations.EveryInstructionKeepsItsFootprint : Prop :=
  ∀ (i : Instr) (s t : State), exec i s = .next t → Frame (footprint i) s t

/-- R22 (logic operations: D23, their destination and the copy's: G1, log 13; `Fx1E`: D6, log 9): an instruction
that is no flag writer and does not name VF as a destination leaves VF; a flag writer that does not name VF as its
destination leaves 0 or 1 there. -/
def Obligations.OnlyFlagWritersTouchVF : Prop :=
  ∀ (i : Instr) (s t : State), exec i s = .next t → 15 ∉ destinations i →
    (flagWriter i = false → t.reg 15 = s.reg 15) ∧ (flagWriter i = true → t.reg 15 = 0 ∨ t.reg 15 = 1)

/-- R55, R30: a completing instruction changes no byte of memory outside the bytes it stores from `I` on. -/
def Obligations.OnlyStoredBytesChange : Prop :=
  ∀ (i : Instr) (s t : State), exec i s = .next t →
    ∀ a, (a < s.i.toNat ∨ s.i.toNat + storedBytes i ≤ a) → t.mem.read a = s.mem.read a

/-- R203: no instruction but Clear and Draw and no boundary operation but reset (and the step) writes the
display; reset makes every cell false (D1, log 3); the snapshot shows it. -/
def Obligations.OnlyClearAndDrawWriteTheDisplay : Prop :=
  (∀ (i : Instr) (s t : State), exec i s = .next t → i ≠ .clear → (∀ x y n, i ≠ .draw x y n) → t.disp = s.disp) ∧
  (∀ (op : BoundaryOp) (s : State), op ≠ .reset → op ≠ .step → (perform op s).1.disp = s.disp) ∧
  (∀ (s : State) row col, (perform .reset s).1.cell row col = false) ∧
  (∀ s : State, ∃ view, perform .snapshot s = (s, .snapshot view) ∧ view.display = s.disp)

/-- R32, R246, R247: the keypad changes by nothing but `key_down`, `key_up` and reset. -/
def Obligations.OnlyKeyOperationsWriteTheKeypad : Prop :=
  (∀ (i : Instr) (s t : State), exec i s = .next t → t.key = s.key) ∧
  (∀ (op : BoundaryOp) (s : State), op ≠ .reset → (∀ k, op ≠ .keyDown k ∧ op ≠ .keyUp k) →
    (perform op s).1.key = s.key)

/-- R28, R244 (D21): nothing reads the sound timer. Two states that differ only in ST step alike, to states that
differ at most in ST. It compares two steps and rests on log 2 (DESIGN CHOICE): both draw the same random byte,
because the model takes it from `randDraws`, while R34 leaves each draw free. -/
def Obligations.SoundTimerIsNeverRead : Prop :=
  ∀ (s : State) (b : Byte), match step s, step { s with st := b } with
    | .next t, .next u => ∃ b', u = { t with st := b' }
    | .fault f, .fault g => g = f
    | .refused r, .refused q => q = r
    | _, _ => False

/-- R25 (D14, log 16): a popped stack entry is never observed. Two states that agree but for the entries at or
above SP step alike, to states that agree so again. It compares two steps and rests on log 2 (DESIGN CHOICE): both
draw the same random byte, because the model takes it from `randDraws`, while R34 leaves each draw free. -/
def Obligations.StaleStackEntriesAreNeverObserved : Prop :=
  ∀ s s' : State, AgreeBelowSp s s' → match step s, step s' with
    | .next t, .next t' => AgreeBelowSp t t'
    | .fault f, .fault f' => f' = f
    | .refused r, .refused r' => r' = r
    | _, _ => False

/-- The invariant (memory canonical, SP at most 16, stack entries at most 0x1000, `pc` at most 0x10FE) holds at
reset. That SP and the stack are zero there is the spec's decision D1 (log 3). -/
def Obligations.ResetMeetsTheInvariant : Prop := State.reset.Inv

/-- R117, R26: from every state that meets the invariant, a step leads to one that meets it. -/
def Obligations.StepKeepsTheInvariant : Prop :=
  ∀ s t : State, s.Inv → step s = .next t → t.Inv

/-- R245, R117: every one of the host's seven moves, the step among them, keeps the invariant, from every state that
meets it: a step, also one that faults and leaves the state (D10, log 5), a reset (its values: D1, log 3), a `load`
of any program (D13, log 15), a key operation, a tick, a snapshot (the moves: D17, D18, log 17). -/
def Obligations.HostMovesKeepTheInvariant : Prop :=
  ∀ (op : BoundaryOp) (s : State), s.Inv → (perform op s).1.Inv

/-- R117, R249, R273 (the reset values: D1, log 3; `load`: D13, log 15; the moves: D17, D18, log 17): the launch state
of every program and every state of a run from it meet the invariant, and so does every state the host can reach
by any sequence of its moves, also outside the lifecycle. -/
def Obligations.ReachableStatesMeetTheInvariant : Prop :=
  (∀ program : List Byte, (launch program).Inv) ∧ (∀ (program : List Byte) (s : State), RunState program s → s.Inv) ∧
  ∀ s : State, Reachable s → s.Inv

/-- Under the invariant no step is refused: every outcome is one the spec gives (R110; log 4). -/
def Obligations.NoStepIsRefusedUnderTheInvariant : Prop :=
  ∀ (s : State) (r : Refusal), s.Inv → step s ≠ .refused r

/-! ### Reset and the host's operations -/

/-- R36, R270: `pc` is 0x200 and the glyph area holds GLYPHS (the document's values); everything else is zero,
false or empty by the spec's decision D1 (log 3). Reset leads there from every state. -/
def Obligations.ResetValues : Prop :=
  (∀ s : State, perform .reset s = (State.reset, .ok)) ∧ State.reset.pc = 0x200 ∧
  (∀ a < 0x50, State.reset.mem.read a = Config.glyph a) ∧
  (∀ a, 0x50 ≤ a → a ≤ 0xFFF → State.reset.mem.read a = 0) ∧
  (∀ x, State.reset.reg x = 0) ∧ State.reset.i = 0 ∧ State.reset.sp = 0 ∧ (∀ j, State.reset.stackEntry j = 0) ∧
  State.reset.dt = 0 ∧ State.reset.st = 0 ∧ (∀ k, State.reset.keyState k = false) ∧
  (∀ row col, State.reset.cell row col = false)

/-- R274 (nothing else changes: D13, log 15): `load` copies the program from 0x200 on, fills the rest with zero,
drops what does not fit, keeps everything below 0x200 and all other state. R273, R271: the launch state is that of a
`load` after a reset, from whatever state, and its first step runs the program's first word. -/
def Obligations.LoadCopiesAndZeroFills : Prop :=
  (∀ (s : State) (program : List Byte), ∃ t, perform (.load program) s = (t, .ok) ∧
    (∀ a < 0x200, t.mem.read a = s.mem.read a) ∧
    (∀ k < 3584, t.mem.read (0x200 + k) = program[k]?.getD 0) ∧
    t.pc = s.pc ∧ Frame { mem := true } s t) ∧
  (∀ (s : State) (program : List Byte), perform (.load program) (perform .reset s).1 = (launch program, .ok)) ∧
  (∀ (hi lo : Byte) (rest : List Byte) (i : Instr), decodeBytes [hi, lo] = .ok (i, []) →
    step (launch (hi :: lo :: rest)) = exec i (launch (hi :: lo :: rest)))

/-- R246, R247, R237: a key operation writes its key alone; an index above 15 is rejected and changes nothing. -/
def Obligations.KeyOperationsWriteOneKey : Prop :=
  ∀ (s : State) (k : Nat) (down : Bool),
    (15 < k → perform (if down then .keyDown k else .keyUp k) s = (s, .keyError (.outOfRangeKeyIndex k))) ∧
    (∀ j : KeyIdx, j.val = k → ∃ t, perform (if down then .keyDown k else .keyUp k) s = (t, .ok) ∧
      t.keyState j = down ∧ (∀ l, l ≠ j → t.keyState l = s.keyState l) ∧ { t with key := s.key } = s)

/-- R248: a tick decrements both timers, each floored at 0, and nothing else. -/
def Obligations.TickDecrementsBothTimers : Prop :=
  ∀ s : State, ∃ t, perform .tickTimers s = (t, .ok) ∧ t.dt.toNat = s.dt.toNat - 1 ∧ t.st.toNat = s.st.toNat - 1 ∧
    { t with dt := s.dt, st := s.st } = s

/-- R250 (the listed surface; D25, log 17): the snapshot shows all of memory, the display, `pc` and both timers,
and reading it changes nothing. -/
def Obligations.SnapshotShowsTheListedSurface : Prop :=
  ∀ s : State, ∃ view, perform .snapshot s = (s, .snapshot view) ∧ view.memory.length = 4096 ∧
    (∀ a < 4096, view.memory[a]? = some (s.mem.read a)) ∧ view.display = s.disp ∧ view.pc = s.pc ∧
    view.dt = s.dt ∧ view.st = s.st
end

