-- ==== Sys2Proof/Laws/State.lean ====
section
/-! SUPPORT. What each update of State does to each field, and to each accessor it leaves alone, true by rfl. -/

namespace Sys2Proof.Machine

variable (s : State)

/-! ### memWrite -/

@[simp] theorem State.memWrite_mem (a : Nat) (b : Byte) : (s.memWrite a b).mem = s.mem.write a b := rfl
@[simp] theorem State.memWrite_v (a : Nat) (b : Byte) : (s.memWrite a b).v = s.v := rfl
@[simp] theorem State.memWrite_i (a : Nat) (b : Byte) : (s.memWrite a b).i = s.i := rfl
@[simp] theorem State.memWrite_dt (a : Nat) (b : Byte) : (s.memWrite a b).dt = s.dt := rfl
@[simp] theorem State.memWrite_st (a : Nat) (b : Byte) : (s.memWrite a b).st = s.st := rfl
@[simp] theorem State.memWrite_pc (a : Nat) (b : Byte) : (s.memWrite a b).pc = s.pc := rfl
@[simp] theorem State.memWrite_stack (a : Nat) (b : Byte) : (s.memWrite a b).stack = s.stack := rfl
@[simp] theorem State.memWrite_sp (a : Nat) (b : Byte) : (s.memWrite a b).sp = s.sp := rfl
@[simp] theorem State.memWrite_key (a : Nat) (b : Byte) : (s.memWrite a b).key = s.key := rfl
@[simp] theorem State.memWrite_disp (a : Nat) (b : Byte) : (s.memWrite a b).disp = s.disp := rfl
@[simp] theorem State.memWrite_randDraws (a : Nat) (b : Byte) : (s.memWrite a b).randDraws = s.randDraws := rfl
@[simp] theorem State.memWrite_reg (a : Nat) (b : Byte) (y : RegIdx) : (s.memWrite a b).reg y = s.reg y := rfl
@[simp] theorem State.memWrite_stackEntry (a : Nat) (b : Byte) (m : Fin 16) : (s.memWrite a b).stackEntry m = s.stackEntry m := rfl
@[simp] theorem State.memWrite_cell (a : Nat) (b : Byte) (r' : DispRow) (c' : DispCol) : (s.memWrite a b).cell r' c' = s.cell r' c' := rfl
@[simp] theorem State.memWrite_keyState (a : Nat) (b : Byte) (l : KeyIdx) : (s.memWrite a b).keyState l = s.keyState l := rfl
@[simp] theorem State.memWrite_ea (a : Nat) (b : Byte) (n : Nat) : (s.memWrite a b).ea n = s.ea n := rfl

/-! ### loadProgram -/

@[simp] theorem State.loadProgram_mem (p : List Byte) : (s.loadProgram p).mem = s.mem.load p := rfl
@[simp] theorem State.loadProgram_v (p : List Byte) : (s.loadProgram p).v = s.v := rfl
@[simp] theorem State.loadProgram_i (p : List Byte) : (s.loadProgram p).i = s.i := rfl
@[simp] theorem State.loadProgram_dt (p : List Byte) : (s.loadProgram p).dt = s.dt := rfl
@[simp] theorem State.loadProgram_st (p : List Byte) : (s.loadProgram p).st = s.st := rfl
@[simp] theorem State.loadProgram_pc (p : List Byte) : (s.loadProgram p).pc = s.pc := rfl
@[simp] theorem State.loadProgram_stack (p : List Byte) : (s.loadProgram p).stack = s.stack := rfl
@[simp] theorem State.loadProgram_sp (p : List Byte) : (s.loadProgram p).sp = s.sp := rfl
@[simp] theorem State.loadProgram_key (p : List Byte) : (s.loadProgram p).key = s.key := rfl
@[simp] theorem State.loadProgram_disp (p : List Byte) : (s.loadProgram p).disp = s.disp := rfl
@[simp] theorem State.loadProgram_randDraws (p : List Byte) : (s.loadProgram p).randDraws = s.randDraws := rfl
@[simp] theorem State.loadProgram_reg (p : List Byte) (y : RegIdx) : (s.loadProgram p).reg y = s.reg y := rfl
@[simp] theorem State.loadProgram_stackEntry (p : List Byte) (m : Fin 16) : (s.loadProgram p).stackEntry m = s.stackEntry m := rfl
@[simp] theorem State.loadProgram_cell (p : List Byte) (r' : DispRow) (c' : DispCol) : (s.loadProgram p).cell r' c' = s.cell r' c' := rfl
@[simp] theorem State.loadProgram_keyState (p : List Byte) (l : KeyIdx) : (s.loadProgram p).keyState l = s.keyState l := rfl
@[simp] theorem State.loadProgram_ea (p : List Byte) (n : Nat) : (s.loadProgram p).ea n = s.ea n := rfl

/-! ### setReg -/

@[simp] theorem State.setReg_mem (x : RegIdx) (b : Byte) : (s.setReg x b).mem = s.mem := rfl
@[simp] theorem State.setReg_v (x : RegIdx) (b : Byte) : (s.setReg x b).v = s.v.set x.val b := rfl
@[simp] theorem State.setReg_i (x : RegIdx) (b : Byte) : (s.setReg x b).i = s.i := rfl
@[simp] theorem State.setReg_dt (x : RegIdx) (b : Byte) : (s.setReg x b).dt = s.dt := rfl
@[simp] theorem State.setReg_st (x : RegIdx) (b : Byte) : (s.setReg x b).st = s.st := rfl
@[simp] theorem State.setReg_pc (x : RegIdx) (b : Byte) : (s.setReg x b).pc = s.pc := rfl
@[simp] theorem State.setReg_stack (x : RegIdx) (b : Byte) : (s.setReg x b).stack = s.stack := rfl
@[simp] theorem State.setReg_sp (x : RegIdx) (b : Byte) : (s.setReg x b).sp = s.sp := rfl
@[simp] theorem State.setReg_key (x : RegIdx) (b : Byte) : (s.setReg x b).key = s.key := rfl
@[simp] theorem State.setReg_disp (x : RegIdx) (b : Byte) : (s.setReg x b).disp = s.disp := rfl
@[simp] theorem State.setReg_randDraws (x : RegIdx) (b : Byte) : (s.setReg x b).randDraws = s.randDraws := rfl
@[simp] theorem State.setReg_memRead (x : RegIdx) (b : Byte) (n : Nat) : (s.setReg x b).memRead n = s.memRead n := rfl
@[simp] theorem State.setReg_stackEntry (x : RegIdx) (b : Byte) (m : Fin 16) : (s.setReg x b).stackEntry m = s.stackEntry m := rfl
@[simp] theorem State.setReg_cell (x : RegIdx) (b : Byte) (r' : DispRow) (c' : DispCol) : (s.setReg x b).cell r' c' = s.cell r' c' := rfl
@[simp] theorem State.setReg_keyState (x : RegIdx) (b : Byte) (l : KeyIdx) : (s.setReg x b).keyState l = s.keyState l := rfl
@[simp] theorem State.setReg_ea (x : RegIdx) (b : Byte) (n : Nat) : (s.setReg x b).ea n = s.ea n := rfl

/-! ### setFlag -/

@[simp] theorem State.setFlag_mem (b : Bool) : (s.setFlag b).mem = s.mem := rfl
@[simp] theorem State.setFlag_v (b : Bool) : (s.setFlag b).v = s.v.set vf.val (flagByte b) := rfl
@[simp] theorem State.setFlag_i (b : Bool) : (s.setFlag b).i = s.i := rfl
@[simp] theorem State.setFlag_dt (b : Bool) : (s.setFlag b).dt = s.dt := rfl
@[simp] theorem State.setFlag_st (b : Bool) : (s.setFlag b).st = s.st := rfl
@[simp] theorem State.setFlag_pc (b : Bool) : (s.setFlag b).pc = s.pc := rfl
@[simp] theorem State.setFlag_stack (b : Bool) : (s.setFlag b).stack = s.stack := rfl
@[simp] theorem State.setFlag_sp (b : Bool) : (s.setFlag b).sp = s.sp := rfl
@[simp] theorem State.setFlag_key (b : Bool) : (s.setFlag b).key = s.key := rfl
@[simp] theorem State.setFlag_disp (b : Bool) : (s.setFlag b).disp = s.disp := rfl
@[simp] theorem State.setFlag_randDraws (b : Bool) : (s.setFlag b).randDraws = s.randDraws := rfl
@[simp] theorem State.setFlag_memRead (b : Bool) (n : Nat) : (s.setFlag b).memRead n = s.memRead n := rfl
@[simp] theorem State.setFlag_stackEntry (b : Bool) (m : Fin 16) : (s.setFlag b).stackEntry m = s.stackEntry m := rfl
@[simp] theorem State.setFlag_cell (b : Bool) (r' : DispRow) (c' : DispCol) : (s.setFlag b).cell r' c' = s.cell r' c' := rfl
@[simp] theorem State.setFlag_keyState (b : Bool) (l : KeyIdx) : (s.setFlag b).keyState l = s.keyState l := rfl
@[simp] theorem State.setFlag_ea (b : Bool) (n : Nat) : (s.setFlag b).ea n = s.ea n := rfl

/-! ### setI -/

@[simp] theorem State.setI_mem (a : Word) : (s.setI a).mem = s.mem := rfl
@[simp] theorem State.setI_v (a : Word) : (s.setI a).v = s.v := rfl
@[simp] theorem State.setI_i (a : Word) : (s.setI a).i = a := rfl
@[simp] theorem State.setI_dt (a : Word) : (s.setI a).dt = s.dt := rfl
@[simp] theorem State.setI_st (a : Word) : (s.setI a).st = s.st := rfl
@[simp] theorem State.setI_pc (a : Word) : (s.setI a).pc = s.pc := rfl
@[simp] theorem State.setI_stack (a : Word) : (s.setI a).stack = s.stack := rfl
@[simp] theorem State.setI_sp (a : Word) : (s.setI a).sp = s.sp := rfl
@[simp] theorem State.setI_key (a : Word) : (s.setI a).key = s.key := rfl
@[simp] theorem State.setI_disp (a : Word) : (s.setI a).disp = s.disp := rfl
@[simp] theorem State.setI_randDraws (a : Word) : (s.setI a).randDraws = s.randDraws := rfl
@[simp] theorem State.setI_reg (a : Word) (y : RegIdx) : (s.setI a).reg y = s.reg y := rfl
@[simp] theorem State.setI_memRead (a : Word) (n : Nat) : (s.setI a).memRead n = s.memRead n := rfl
@[simp] theorem State.setI_stackEntry (a : Word) (m : Fin 16) : (s.setI a).stackEntry m = s.stackEntry m := rfl
@[simp] theorem State.setI_cell (a : Word) (r' : DispRow) (c' : DispCol) : (s.setI a).cell r' c' = s.cell r' c' := rfl
@[simp] theorem State.setI_keyState (a : Word) (l : KeyIdx) : (s.setI a).keyState l = s.keyState l := rfl

/-! ### setDt -/

@[simp] theorem State.setDt_mem (b : Byte) : (s.setDt b).mem = s.mem := rfl
@[simp] theorem State.setDt_v (b : Byte) : (s.setDt b).v = s.v := rfl
@[simp] theorem State.setDt_i (b : Byte) : (s.setDt b).i = s.i := rfl
@[simp] theorem State.setDt_dt (b : Byte) : (s.setDt b).dt = b := rfl
@[simp] theorem State.setDt_st (b : Byte) : (s.setDt b).st = s.st := rfl
@[simp] theorem State.setDt_pc (b : Byte) : (s.setDt b).pc = s.pc := rfl
@[simp] theorem State.setDt_stack (b : Byte) : (s.setDt b).stack = s.stack := rfl
@[simp] theorem State.setDt_sp (b : Byte) : (s.setDt b).sp = s.sp := rfl
@[simp] theorem State.setDt_key (b : Byte) : (s.setDt b).key = s.key := rfl
@[simp] theorem State.setDt_disp (b : Byte) : (s.setDt b).disp = s.disp := rfl
@[simp] theorem State.setDt_randDraws (b : Byte) : (s.setDt b).randDraws = s.randDraws := rfl
@[simp] theorem State.setDt_reg (b : Byte) (y : RegIdx) : (s.setDt b).reg y = s.reg y := rfl
@[simp] theorem State.setDt_memRead (b : Byte) (n : Nat) : (s.setDt b).memRead n = s.memRead n := rfl
@[simp] theorem State.setDt_stackEntry (b : Byte) (m : Fin 16) : (s.setDt b).stackEntry m = s.stackEntry m := rfl
@[simp] theorem State.setDt_cell (b : Byte) (r' : DispRow) (c' : DispCol) : (s.setDt b).cell r' c' = s.cell r' c' := rfl
@[simp] theorem State.setDt_keyState (b : Byte) (l : KeyIdx) : (s.setDt b).keyState l = s.keyState l := rfl
@[simp] theorem State.setDt_ea (b : Byte) (n : Nat) : (s.setDt b).ea n = s.ea n := rfl

/-! ### setSt -/

@[simp] theorem State.setSt_mem (b : Byte) : (s.setSt b).mem = s.mem := rfl
@[simp] theorem State.setSt_v (b : Byte) : (s.setSt b).v = s.v := rfl
@[simp] theorem State.setSt_i (b : Byte) : (s.setSt b).i = s.i := rfl
@[simp] theorem State.setSt_dt (b : Byte) : (s.setSt b).dt = s.dt := rfl
@[simp] theorem State.setSt_st (b : Byte) : (s.setSt b).st = b := rfl
@[simp] theorem State.setSt_pc (b : Byte) : (s.setSt b).pc = s.pc := rfl
@[simp] theorem State.setSt_stack (b : Byte) : (s.setSt b).stack = s.stack := rfl
@[simp] theorem State.setSt_sp (b : Byte) : (s.setSt b).sp = s.sp := rfl
@[simp] theorem State.setSt_key (b : Byte) : (s.setSt b).key = s.key := rfl
@[simp] theorem State.setSt_disp (b : Byte) : (s.setSt b).disp = s.disp := rfl
@[simp] theorem State.setSt_randDraws (b : Byte) : (s.setSt b).randDraws = s.randDraws := rfl
@[simp] theorem State.setSt_reg (b : Byte) (y : RegIdx) : (s.setSt b).reg y = s.reg y := rfl
@[simp] theorem State.setSt_memRead (b : Byte) (n : Nat) : (s.setSt b).memRead n = s.memRead n := rfl
@[simp] theorem State.setSt_stackEntry (b : Byte) (m : Fin 16) : (s.setSt b).stackEntry m = s.stackEntry m := rfl
@[simp] theorem State.setSt_cell (b : Byte) (r' : DispRow) (c' : DispCol) : (s.setSt b).cell r' c' = s.cell r' c' := rfl
@[simp] theorem State.setSt_keyState (b : Byte) (l : KeyIdx) : (s.setSt b).keyState l = s.keyState l := rfl
@[simp] theorem State.setSt_ea (b : Byte) (n : Nat) : (s.setSt b).ea n = s.ea n := rfl

/-! ### setPc -/

@[simp] theorem State.setPc_mem (a : Word) : (s.setPc a).mem = s.mem := rfl
@[simp] theorem State.setPc_v (a : Word) : (s.setPc a).v = s.v := rfl
@[simp] theorem State.setPc_i (a : Word) : (s.setPc a).i = s.i := rfl
@[simp] theorem State.setPc_dt (a : Word) : (s.setPc a).dt = s.dt := rfl
@[simp] theorem State.setPc_st (a : Word) : (s.setPc a).st = s.st := rfl
@[simp] theorem State.setPc_pc (a : Word) : (s.setPc a).pc = a := rfl
@[simp] theorem State.setPc_stack (a : Word) : (s.setPc a).stack = s.stack := rfl
@[simp] theorem State.setPc_sp (a : Word) : (s.setPc a).sp = s.sp := rfl
@[simp] theorem State.setPc_key (a : Word) : (s.setPc a).key = s.key := rfl
@[simp] theorem State.setPc_disp (a : Word) : (s.setPc a).disp = s.disp := rfl
@[simp] theorem State.setPc_randDraws (a : Word) : (s.setPc a).randDraws = s.randDraws := rfl
@[simp] theorem State.setPc_reg (a : Word) (y : RegIdx) : (s.setPc a).reg y = s.reg y := rfl
@[simp] theorem State.setPc_memRead (a : Word) (n : Nat) : (s.setPc a).memRead n = s.memRead n := rfl
@[simp] theorem State.setPc_stackEntry (a : Word) (m : Fin 16) : (s.setPc a).stackEntry m = s.stackEntry m := rfl
@[simp] theorem State.setPc_cell (a : Word) (r' : DispRow) (c' : DispCol) : (s.setPc a).cell r' c' = s.cell r' c' := rfl
@[simp] theorem State.setPc_keyState (a : Word) (l : KeyIdx) : (s.setPc a).keyState l = s.keyState l := rfl
@[simp] theorem State.setPc_ea (a : Word) (n : Nat) : (s.setPc a).ea n = s.ea n := rfl

/-! ### setStackEntry -/

@[simp] theorem State.setStackEntry_mem (j : Fin 16) (a : Word) : (s.setStackEntry j a).mem = s.mem := rfl
@[simp] theorem State.setStackEntry_v (j : Fin 16) (a : Word) : (s.setStackEntry j a).v = s.v := rfl
@[simp] theorem State.setStackEntry_i (j : Fin 16) (a : Word) : (s.setStackEntry j a).i = s.i := rfl
@[simp] theorem State.setStackEntry_dt (j : Fin 16) (a : Word) : (s.setStackEntry j a).dt = s.dt := rfl
@[simp] theorem State.setStackEntry_st (j : Fin 16) (a : Word) : (s.setStackEntry j a).st = s.st := rfl
@[simp] theorem State.setStackEntry_pc (j : Fin 16) (a : Word) : (s.setStackEntry j a).pc = s.pc := rfl
@[simp] theorem State.setStackEntry_stack (j : Fin 16) (a : Word) : (s.setStackEntry j a).stack = s.stack.set j.val a := rfl
@[simp] theorem State.setStackEntry_sp (j : Fin 16) (a : Word) : (s.setStackEntry j a).sp = s.sp := rfl
@[simp] theorem State.setStackEntry_key (j : Fin 16) (a : Word) : (s.setStackEntry j a).key = s.key := rfl
@[simp] theorem State.setStackEntry_disp (j : Fin 16) (a : Word) : (s.setStackEntry j a).disp = s.disp := rfl
@[simp] theorem State.setStackEntry_randDraws (j : Fin 16) (a : Word) : (s.setStackEntry j a).randDraws = s.randDraws := rfl
@[simp] theorem State.setStackEntry_reg (j : Fin 16) (a : Word) (y : RegIdx) : (s.setStackEntry j a).reg y = s.reg y := rfl
@[simp] theorem State.setStackEntry_memRead (j : Fin 16) (a : Word) (n : Nat) : (s.setStackEntry j a).memRead n = s.memRead n := rfl
@[simp] theorem State.setStackEntry_cell (j : Fin 16) (a : Word) (r' : DispRow) (c' : DispCol) : (s.setStackEntry j a).cell r' c' = s.cell r' c' := rfl
@[simp] theorem State.setStackEntry_keyState (j : Fin 16) (a : Word) (l : KeyIdx) : (s.setStackEntry j a).keyState l = s.keyState l := rfl
@[simp] theorem State.setStackEntry_ea (j : Fin 16) (a : Word) (n : Nat) : (s.setStackEntry j a).ea n = s.ea n := rfl

/-! ### setSp -/

@[simp] theorem State.setSp_mem (b : Byte) : (s.setSp b).mem = s.mem := rfl
@[simp] theorem State.setSp_v (b : Byte) : (s.setSp b).v = s.v := rfl
@[simp] theorem State.setSp_i (b : Byte) : (s.setSp b).i = s.i := rfl
@[simp] theorem State.setSp_dt (b : Byte) : (s.setSp b).dt = s.dt := rfl
@[simp] theorem State.setSp_st (b : Byte) : (s.setSp b).st = s.st := rfl
@[simp] theorem State.setSp_pc (b : Byte) : (s.setSp b).pc = s.pc := rfl
@[simp] theorem State.setSp_stack (b : Byte) : (s.setSp b).stack = s.stack := rfl
@[simp] theorem State.setSp_sp (b : Byte) : (s.setSp b).sp = b := rfl
@[simp] theorem State.setSp_key (b : Byte) : (s.setSp b).key = s.key := rfl
@[simp] theorem State.setSp_disp (b : Byte) : (s.setSp b).disp = s.disp := rfl
@[simp] theorem State.setSp_randDraws (b : Byte) : (s.setSp b).randDraws = s.randDraws := rfl
@[simp] theorem State.setSp_reg (b : Byte) (y : RegIdx) : (s.setSp b).reg y = s.reg y := rfl
@[simp] theorem State.setSp_memRead (b : Byte) (n : Nat) : (s.setSp b).memRead n = s.memRead n := rfl
@[simp] theorem State.setSp_stackEntry (b : Byte) (m : Fin 16) : (s.setSp b).stackEntry m = s.stackEntry m := rfl
@[simp] theorem State.setSp_cell (b : Byte) (r' : DispRow) (c' : DispCol) : (s.setSp b).cell r' c' = s.cell r' c' := rfl
@[simp] theorem State.setSp_keyState (b : Byte) (l : KeyIdx) : (s.setSp b).keyState l = s.keyState l := rfl
@[simp] theorem State.setSp_ea (b : Byte) (n : Nat) : (s.setSp b).ea n = s.ea n := rfl

/-! ### setCell -/

@[simp] theorem State.setCell_mem (r : DispRow) (c : DispCol) (b : Bool) : (s.setCell r c b).mem = s.mem := rfl
@[simp] theorem State.setCell_v (r : DispRow) (c : DispCol) (b : Bool) : (s.setCell r c b).v = s.v := rfl
@[simp] theorem State.setCell_i (r : DispRow) (c : DispCol) (b : Bool) : (s.setCell r c b).i = s.i := rfl
@[simp] theorem State.setCell_dt (r : DispRow) (c : DispCol) (b : Bool) : (s.setCell r c b).dt = s.dt := rfl
@[simp] theorem State.setCell_st (r : DispRow) (c : DispCol) (b : Bool) : (s.setCell r c b).st = s.st := rfl
@[simp] theorem State.setCell_pc (r : DispRow) (c : DispCol) (b : Bool) : (s.setCell r c b).pc = s.pc := rfl
@[simp] theorem State.setCell_stack (r : DispRow) (c : DispCol) (b : Bool) : (s.setCell r c b).stack = s.stack := rfl
@[simp] theorem State.setCell_sp (r : DispRow) (c : DispCol) (b : Bool) : (s.setCell r c b).sp = s.sp := rfl
@[simp] theorem State.setCell_key (r : DispRow) (c : DispCol) (b : Bool) : (s.setCell r c b).key = s.key := rfl
@[simp] theorem State.setCell_disp (r : DispRow) (c : DispCol) (b : Bool) : (s.setCell r c b).disp = s.disp.set r.val (s.disp[r.val].set c.val b) := rfl
@[simp] theorem State.setCell_randDraws (r : DispRow) (c : DispCol) (b : Bool) : (s.setCell r c b).randDraws = s.randDraws := rfl
@[simp] theorem State.setCell_reg (r : DispRow) (c : DispCol) (b : Bool) (y : RegIdx) : (s.setCell r c b).reg y = s.reg y := rfl
@[simp] theorem State.setCell_memRead (r : DispRow) (c : DispCol) (b : Bool) (n : Nat) : (s.setCell r c b).memRead n = s.memRead n := rfl
@[simp] theorem State.setCell_stackEntry (r : DispRow) (c : DispCol) (b : Bool) (m : Fin 16) : (s.setCell r c b).stackEntry m = s.stackEntry m := rfl
@[simp] theorem State.setCell_keyState (r : DispRow) (c : DispCol) (b : Bool) (l : KeyIdx) : (s.setCell r c b).keyState l = s.keyState l := rfl
@[simp] theorem State.setCell_ea (r : DispRow) (c : DispCol) (b : Bool) (n : Nat) : (s.setCell r c b).ea n = s.ea n := rfl

/-! ### clearDisplay -/

@[simp] theorem State.clearDisplay_mem : (s.clearDisplay).mem = s.mem := rfl
@[simp] theorem State.clearDisplay_v : (s.clearDisplay).v = s.v := rfl
@[simp] theorem State.clearDisplay_i : (s.clearDisplay).i = s.i := rfl
@[simp] theorem State.clearDisplay_dt : (s.clearDisplay).dt = s.dt := rfl
@[simp] theorem State.clearDisplay_st : (s.clearDisplay).st = s.st := rfl
@[simp] theorem State.clearDisplay_pc : (s.clearDisplay).pc = s.pc := rfl
@[simp] theorem State.clearDisplay_stack : (s.clearDisplay).stack = s.stack := rfl
@[simp] theorem State.clearDisplay_sp : (s.clearDisplay).sp = s.sp := rfl
@[simp] theorem State.clearDisplay_key : (s.clearDisplay).key = s.key := rfl
@[simp] theorem State.clearDisplay_disp : (s.clearDisplay).disp = Vector.replicate 32 (Vector.replicate 64 false) := rfl
@[simp] theorem State.clearDisplay_randDraws : (s.clearDisplay).randDraws = s.randDraws := rfl
@[simp] theorem State.clearDisplay_reg (y : RegIdx) : (s.clearDisplay).reg y = s.reg y := rfl
@[simp] theorem State.clearDisplay_memRead (n : Nat) : (s.clearDisplay).memRead n = s.memRead n := rfl
@[simp] theorem State.clearDisplay_stackEntry (m : Fin 16) : (s.clearDisplay).stackEntry m = s.stackEntry m := rfl
@[simp] theorem State.clearDisplay_keyState (l : KeyIdx) : (s.clearDisplay).keyState l = s.keyState l := rfl
@[simp] theorem State.clearDisplay_ea (n : Nat) : (s.clearDisplay).ea n = s.ea n := rfl

/-! ### setKey -/

@[simp] theorem State.setKey_mem (k : KeyIdx) (b : Bool) : (s.setKey k b).mem = s.mem := rfl
@[simp] theorem State.setKey_v (k : KeyIdx) (b : Bool) : (s.setKey k b).v = s.v := rfl
@[simp] theorem State.setKey_i (k : KeyIdx) (b : Bool) : (s.setKey k b).i = s.i := rfl
@[simp] theorem State.setKey_dt (k : KeyIdx) (b : Bool) : (s.setKey k b).dt = s.dt := rfl
@[simp] theorem State.setKey_st (k : KeyIdx) (b : Bool) : (s.setKey k b).st = s.st := rfl
@[simp] theorem State.setKey_pc (k : KeyIdx) (b : Bool) : (s.setKey k b).pc = s.pc := rfl
@[simp] theorem State.setKey_stack (k : KeyIdx) (b : Bool) : (s.setKey k b).stack = s.stack := rfl
@[simp] theorem State.setKey_sp (k : KeyIdx) (b : Bool) : (s.setKey k b).sp = s.sp := rfl
@[simp] theorem State.setKey_key (k : KeyIdx) (b : Bool) : (s.setKey k b).key = s.key.set k.val b := rfl
@[simp] theorem State.setKey_disp (k : KeyIdx) (b : Bool) : (s.setKey k b).disp = s.disp := rfl
@[simp] theorem State.setKey_randDraws (k : KeyIdx) (b : Bool) : (s.setKey k b).randDraws = s.randDraws := rfl
@[simp] theorem State.setKey_reg (k : KeyIdx) (b : Bool) (y : RegIdx) : (s.setKey k b).reg y = s.reg y := rfl
@[simp] theorem State.setKey_memRead (k : KeyIdx) (b : Bool) (n : Nat) : (s.setKey k b).memRead n = s.memRead n := rfl
@[simp] theorem State.setKey_stackEntry (k : KeyIdx) (b : Bool) (m : Fin 16) : (s.setKey k b).stackEntry m = s.stackEntry m := rfl
@[simp] theorem State.setKey_cell (k : KeyIdx) (b : Bool) (r' : DispRow) (c' : DispCol) : (s.setKey k b).cell r' c' = s.cell r' c' := rfl
@[simp] theorem State.setKey_ea (k : KeyIdx) (b : Bool) (n : Nat) : (s.setKey k b).ea n = s.ea n := rfl

/-! ### drawRandom -/

@[simp] theorem State.drawRandom_mem : (s.drawRandom).mem = s.mem := rfl
@[simp] theorem State.drawRandom_v : (s.drawRandom).v = s.v := rfl
@[simp] theorem State.drawRandom_i : (s.drawRandom).i = s.i := rfl
@[simp] theorem State.drawRandom_dt : (s.drawRandom).dt = s.dt := rfl
@[simp] theorem State.drawRandom_st : (s.drawRandom).st = s.st := rfl
@[simp] theorem State.drawRandom_pc : (s.drawRandom).pc = s.pc := rfl
@[simp] theorem State.drawRandom_stack : (s.drawRandom).stack = s.stack := rfl
@[simp] theorem State.drawRandom_sp : (s.drawRandom).sp = s.sp := rfl
@[simp] theorem State.drawRandom_key : (s.drawRandom).key = s.key := rfl
@[simp] theorem State.drawRandom_disp : (s.drawRandom).disp = s.disp := rfl
@[simp] theorem State.drawRandom_randDraws : (s.drawRandom).randDraws = s.randDraws + 1 := rfl
@[simp] theorem State.drawRandom_reg (y : RegIdx) : (s.drawRandom).reg y = s.reg y := rfl
@[simp] theorem State.drawRandom_memRead (n : Nat) : (s.drawRandom).memRead n = s.memRead n := rfl
@[simp] theorem State.drawRandom_stackEntry (m : Fin 16) : (s.drawRandom).stackEntry m = s.stackEntry m := rfl
@[simp] theorem State.drawRandom_cell (r' : DispRow) (c' : DispCol) : (s.drawRandom).cell r' c' = s.cell r' c' := rfl
@[simp] theorem State.drawRandom_keyState (l : KeyIdx) : (s.drawRandom).keyState l = s.keyState l := rfl
@[simp] theorem State.drawRandom_ea (n : Nat) : (s.drawRandom).ea n = s.ea n := rfl

end Sys2Proof.Machine
end

