-- ==== Sys2Proof/Laws/Memory.lean ====
section
/-! SUPPORT. The laws of memory: reading after a write, and that every memory operation keeps the canonical
form. -/

namespace Sys2Proof.Machine

/-! ### The list of cells -/

theorem Memory.lookup_insert (l : List Host.Cell) (a b : Nat) (v : Byte) :
    Memory.lookup (Memory.insert l a v) b = if b = a then some v else Memory.lookup l b := by
  induction l with
  | nil => by_cases h : a = b <;> simp [Memory.insert, Memory.lookup, h, eq_comm]
  | cons c l ih =>
    obtain ⟨d, w⟩ := c
    simp only [Memory.insert]
    by_cases hb : b = a
    · subst hb
      by_cases h1 : b < d
      · simp [h1, Memory.lookup]
      · by_cases h2 : b = d
        · simp [h2, Memory.lookup]
        · simp [h1, h2, Memory.lookup, Ne.symm h2, ih]
    · have hb' : ¬a = b := fun h => hb h.symm
      by_cases h1 : a < d
      · simp [h1, Memory.lookup, hb, hb']
      · by_cases h2 : a = d
        · subst h2; simp [Memory.lookup, hb, hb']
        · simp [h1, h2, Memory.lookup, hb, ih]

theorem Memory.lookup_filter (l : List Host.Cell) (p : Nat → Bool) (b : Nat) :
    Memory.lookup (l.filter (fun c => p c.1)) b = if p b then Memory.lookup l b else none := by
  induction l with
  | nil => simp [Memory.lookup]
  | cons c l ih =>
    obtain ⟨d, w⟩ := c
    by_cases hp : p d <;> by_cases hb : d = b <;> simp_all [Memory.lookup]

theorem Memory.lookup_remove (l : List Host.Cell) (a b : Nat) :
    Memory.lookup (Memory.remove l a) b = if b = a then none else Memory.lookup l b := by
  have := Memory.lookup_filter l (fun c => c != a) b
  by_cases h : b = a <;> simp_all [Memory.remove]

theorem Memory.lookup_append (l l' : List Host.Cell) (b : Nat) :
    Memory.lookup (l ++ l') b = (Memory.lookup l b).or (Memory.lookup l' b) := by
  induction l with
  | nil => simp [Memory.lookup]
  | cons c l ih =>
    by_cases h : c.1 = b <;> simp [Memory.lookup, h, ih]

theorem Memory.lookup_eq_none (l : List Host.Cell) (b : Nat) (h : ∀ c ∈ l, c.1 ≠ b) :
    Memory.lookup l b = none := by
  induction l with
  | nil => rfl
  | cons c l ih =>
    have hc := h c (by simp)
    simp [Memory.lookup, hc, ih (fun d hd => h d (by simp [hd]))]

theorem Memory.mem_insert {l : List Host.Cell} {a : Nat} {v : Byte} {c : Host.Cell}
    (h : c ∈ Memory.insert l a v) : c = (a, v) ∨ c ∈ l := by
  induction l with
  | nil => simpa [Memory.insert] using h
  | cons d l ih =>
    simp only [Memory.insert] at h
    split at h
    · simpa using h
    · split at h
      · rcases List.mem_cons.1 h with h | h
        · exact .inl h
        · exact .inr (List.mem_cons_of_mem _ h)
      · rcases List.mem_cons.1 h with h | h
        · exact .inr (by simp [h])
        · rcases ih h with h | h
          · exact .inl h
          · exact .inr (List.mem_cons_of_mem _ h)

theorem Memory.insert_sorted {l : List Host.Cell} (a : Nat) (v : Byte)
    (h : l.Pairwise (fun c d => c.1 < d.1)) : (Memory.insert l a v).Pairwise (fun c d => c.1 < d.1) := by
  induction l with
  | nil => simp [Memory.insert]
  | cons d l ih =>
    obtain ⟨hd, hl⟩ := List.pairwise_cons.1 h
    simp only [Memory.insert]
    split
    · rename_i hlt
      refine List.pairwise_cons.2 ⟨fun c hc => ?_, h⟩
      rcases List.mem_cons.1 hc with rfl | hc
      · exact hlt
      · exact Nat.lt_trans hlt (hd c hc)
    · split
      · rename_i heq
        exact List.pairwise_cons.2 ⟨fun c hc => by simpa [heq] using hd c hc, hl⟩
      · rename_i hlt hne
        refine List.pairwise_cons.2 ⟨fun c hc => ?_, ih hl⟩
        rcases Memory.mem_insert hc with rfl | hc
        · show d.1 < a
          omega
        · exact hd c hc

/-! ### Reading and writing -/

/-- A byte just written reads back, every other byte as before; nothing can be written above 0xFFF. -/
theorem Memory.read_write (m : Memory) (a b : Nat) (v : Byte) :
    (m.write a v).read b = if b = a ∧ a < 4096 then v else m.read b := by
  unfold Memory.write Memory.read
  by_cases ha : a < 4096
  · by_cases hv : v = resetByte a
    · by_cases hb : b = a <;> simp [ha, hv, Memory.lookup_remove, hb]
    · by_cases hb : b = a <;> simp [ha, hv, Memory.lookup_insert, hb]
  · simp [ha]

theorem Memory.read_write_same (m : Memory) {a : Nat} (v : Byte) (h : a < 4096) : (m.write a v).read a = v := by
  simp [Memory.read_write, h]

theorem Memory.read_write_ne (m : Memory) {a b : Nat} (v : Byte) (h : b ≠ a) :
    (m.write a v).read b = m.read b := by
  simp [Memory.read_write, h]

theorem State.memRead_memWrite (s : State) (a b : Nat) (v : Byte) :
    (s.memWrite a v).memRead b = if b = a ∧ a < 4096 then v else s.memRead b :=
  Memory.read_write s.mem a b v

theorem Memory.read_reset (a : Nat) : State.reset.mem.read a = resetByte a := rfl

/-! ### The canonical form -/

theorem Memory.reset_wf : State.reset.mem.wf := ⟨List.Pairwise.nil, fun _ h => nomatch h⟩

theorem Memory.write_wf {m : Memory} (a : Nat) (v : Byte) (h : m.wf) : (m.write a v).wf := by
  obtain ⟨hs, hc⟩ := h
  unfold Memory.write
  split
  · rename_i ha
    split
    · exact ⟨hs.sublist List.filter_sublist, fun c hm => hc c (List.mem_of_mem_filter hm)⟩
    · rename_i hv
      refine ⟨Memory.insert_sorted a v hs, fun c hm => ?_⟩
      rcases Memory.mem_insert hm with rfl | hm
      · exact ⟨ha, hv⟩
      · exact hc c hm
  · exact ⟨hs, hc⟩

theorem Memory.mem_cellsFrom {bytes : List Byte} {a : Nat} {c : Host.Cell}
    (h : c ∈ Memory.cellsFrom a bytes) : a ≤ c.1 ∧ c.1 < a + bytes.length ∧ c.2 ≠ resetByte c.1 := by
  induction bytes generalizing a with
  | nil => simp [Memory.cellsFrom] at h
  | cons v rest ih =>
    simp only [Memory.cellsFrom] at h
    split at h
    · have := ih h
      simp only [List.length_cons]
      exact ⟨by omega, by omega, this.2.2⟩
    · rcases List.mem_cons.1 h with rfl | h
      · simp_all
      · have := ih h
        simp only [List.length_cons]
        exact ⟨by omega, by omega, this.2.2⟩

theorem Memory.cellsFrom_sorted (bytes : List Byte) (a : Nat) :
    (Memory.cellsFrom a bytes).Pairwise (fun c d => c.1 < d.1) := by
  induction bytes generalizing a with
  | nil => simp [Memory.cellsFrom]
  | cons v rest ih =>
    simp only [Memory.cellsFrom]
    split
    · exact ih (a + 1)
    · refine List.pairwise_cons.2 ⟨fun c hc => ?_, ih (a + 1)⟩
      exact (Memory.mem_cellsFrom hc).1

theorem Memory.load_wf {m : Memory} (program : List Byte) (h : m.wf) : (m.load program).wf := by
  obtain ⟨hs, hc⟩ := h
  have hlen : (program.take Config.progSize).length ≤ 3584 := by simp
  refine ⟨List.pairwise_append.2 ⟨hs.sublist List.filter_sublist, Memory.cellsFrom_sorted _ _, ?_⟩, ?_⟩
  · intro c h1 d h2
    have h1' := (List.mem_filter.1 h1).2
    have h2' := (Memory.mem_cellsFrom h2).1
    simp only [decide_eq_true_eq, Config.progBase] at h1' h2'
    omega
  · intro c hm
    rcases List.mem_append.1 hm with hm | hm
    · exact hc c (List.mem_of_mem_filter hm)
    · have := Memory.mem_cellsFrom hm
      simp only [Config.progBase, Config.memSize] at this ⊢
      exact ⟨by omega, this.2.2⟩

/-- What the consecutive entries read as, where the program has a byte. -/
theorem Memory.lookup_cellsFrom (bytes : List Byte) (a k : Nat) :
    (Memory.lookup (Memory.cellsFrom a bytes) (a + k)).getD (resetByte (a + k)) =
      bytes[k]?.getD (resetByte (a + k)) := by
  induction bytes generalizing a k with
  | nil => simp [Memory.cellsFrom, Memory.lookup]
  | cons v rest ih =>
    simp only [Memory.cellsFrom]
    cases k with
    | zero =>
      have hn : Memory.lookup (Memory.cellsFrom (a + 1) rest) a = none :=
        Memory.lookup_eq_none _ _ (fun c hc => by have := (Memory.mem_cellsFrom hc).1; omega)
      by_cases hv : v = resetByte a
      · simp [hv, hn]
      · simp [hv, Memory.lookup]
    | succ k =>
      have := ih (a + 1) k
      have hk : a + (k + 1) = a + 1 + k := by omega
      rw [hk]
      by_cases hv : v = resetByte a
      · simpa [hv] using this
      · have hne : ¬a = a + 1 + k := by omega
        simpa [hv, Memory.lookup, hne] using this

end Sys2Proof.Machine
end

