-- ==== Sys2Proof/Laws/Decode.lean ====
section
/-! SUPPORT. The fields of a word, the forms of an encoding and the masks of the opcode map as numbers, so that a
claim about encodings is arithmetic. -/

namespace Sys2Proof

/-! ### Fields -/

theorem nibble0_toNat (w : Word) : (nibble0 w).toNat = w.toNat / 4096 := by
  have := w.isLt
  simp only [nibble0, BitVec.extractLsb'_toNat, Nat.shiftRight_eq_div_pow]
  omega

theorem nibble1_toNat (w : Word) : (nibble1 w).toNat = w.toNat / 256 % 16 := by
  simp only [nibble1, BitVec.extractLsb'_toNat, Nat.shiftRight_eq_div_pow]

theorem nibble2_toNat (w : Word) : (nibble2 w).toNat = w.toNat / 16 % 16 := by
  simp only [nibble2, BitVec.extractLsb'_toNat, Nat.shiftRight_eq_div_pow]

theorem nibble3_toNat (w : Word) : (nibble3 w).toNat = w.toNat % 16 := by
  simp [nibble3, BitVec.extractLsb'_toNat]

theorem fieldNnn_toNat (w : Word) : (fieldNnn w).toNat = w.toNat % 4096 := by
  simp [fieldNnn, BitVec.extractLsb'_toNat]

theorem fieldKk_toNat (w : Word) : (fieldKk w).toNat = w.toNat % 256 := by
  simp [fieldKk, BitVec.extractLsb'_toNat]

theorem fieldX_val (w : Word) : (fieldX w).val = w.toNat / 256 % 16 := nibble1_toNat w

theorem fieldY_val (w : Word) : (fieldY w).val = w.toNat / 16 % 16 := nibble2_toNat w

theorem fieldN_eq (w : Word) : fieldN w = w.toNat % 16 := nibble3_toNat w

theorem highByte_toNat (w : Word) : (highByte w).toNat = w.toNat / 256 := by
  have := w.isLt
  simp only [highByte, BitVec.extractLsb'_toNat, Nat.shiftRight_eq_div_pow]
  omega

theorem lowByte_toNat (w : Word) : (lowByte w).toNat = w.toNat % 256 := by
  simp [lowByte, BitVec.extractLsb'_toNat]

/-- Concatenation as arithmetic (00_scope.md R8). -/
theorem append_toNat {n m : Nat} (a : BitVec n) (b : BitVec m) : (a ++ b).toNat = a.toNat * 2 ^ m + b.toNat := by
  rw [BitVec.toNat_append, ← Nat.shiftLeft_add_eq_or_of_lt b.isLt, Nat.shiftLeft_eq]

theorem wordOfBytes_toNat (hi lo : Byte) : (wordOfBytes hi lo).toNat = hi.toNat * 256 + lo.toNat :=
  append_toNat hi lo

/-- The two bytes of a word put together again (20_memory.md R50). -/
@[simp] theorem wordOfBytes_bytes (w : Word) : wordOfBytes (highByte w) (lowByte w) = w := by
  apply BitVec.eq_of_toNat_eq
  rw [wordOfBytes_toNat, highByte_toNat, lowByte_toNat]
  omega

@[simp] theorem highByte_wordOfBytes (hi lo : Byte) : highByte (wordOfBytes hi lo) = hi := by
  apply BitVec.eq_of_toNat_eq
  have := lo.isLt
  rw [highByte_toNat, wordOfBytes_toNat]
  omega

@[simp] theorem lowByte_wordOfBytes (hi lo : Byte) : lowByte (wordOfBytes hi lo) = lo := by
  apply BitVec.eq_of_toNat_eq
  have := lo.isLt
  rw [lowByte_toNat, wordOfBytes_toNat]
  omega

/-! ### Forms -/

theorem regNibble_toNat (x : RegIdx) : (regNibble x).toNat = x.val := rfl

theorem formNnn_toNat (op : Nibble) (nnn : Addr12) : (formNnn op nnn).toNat = op.toNat * 4096 + nnn.toNat :=
  append_toNat op nnn

theorem formXkk_toNat (op : Nibble) (x : RegIdx) (kk : Byte) :
    (formXkk op x kk).toNat = op.toNat * 4096 + x.val * 256 + kk.toNat := by
  unfold formXkk
  rw [append_toNat, append_toNat, regNibble_toNat]
  omega

theorem formXyn_toNat (op : Nibble) (x y : RegIdx) (n : Nibble) :
    (formXyn op x y n).toNat = op.toNat * 4096 + x.val * 256 + y.val * 16 + n.toNat := by
  unfold formXyn
  rw [append_toNat, append_toNat, append_toNat, regNibble_toNat, regNibble_toNat]
  omega

theorem formX_toNat (op : Nibble) (x : RegIdx) (fn : Byte) :
    (formX op x fn).toNat = op.toNat * 4096 + x.val * 256 + fn.toNat := by
  unfold formX
  rw [append_toNat, append_toNat, regNibble_toNat]
  omega

/-! ### Masks -/

theorem and_F000_toNat (w : Word) : (w &&& 0xF000).toNat = w.toNat / 4096 * 4096 := by
  have h : w &&& 0xF000 = nibble0 w ++ (0 : BitVec 12) := by
    apply BitVec.eq_of_getLsbD_eq
    intro i hi
    simp only [BitVec.getLsbD_and, BitVec.getLsbD_append, BitVec.getLsbD_extractLsb', nibble0]
    interval_cases i <;> simp
  rw [h, append_toNat, nibble0_toNat]
  simp

theorem and_F00F_toNat (w : Word) : (w &&& 0xF00F).toNat = w.toNat / 4096 * 4096 + w.toNat % 16 := by
  have h : w &&& 0xF00F = nibble0 w ++ (0 : BitVec 8) ++ nibble3 w := by
    apply BitVec.eq_of_getLsbD_eq
    intro i hi
    simp only [BitVec.getLsbD_and, BitVec.getLsbD_append, BitVec.getLsbD_extractLsb', nibble0, nibble3]
    interval_cases i <;> simp
  rw [h, append_toNat, append_toNat, nibble0_toNat, nibble3_toNat]
  have h0 : (0 : BitVec 8).toNat = 0 := rfl
  omega

theorem and_F0FF_toNat (w : Word) : (w &&& 0xF0FF).toNat = w.toNat / 4096 * 4096 + w.toNat % 256 := by
  have h : w &&& 0xF0FF = nibble0 w ++ (0 : BitVec 4) ++ fieldKk w := by
    apply BitVec.eq_of_getLsbD_eq
    intro i hi
    simp only [BitVec.getLsbD_and, BitVec.getLsbD_append, BitVec.getLsbD_extractLsb', nibble0, fieldKk]
    interval_cases i <;> simp
  rw [h, append_toNat, append_toNat, nibble0_toNat, fieldKk_toNat]
  have h0 : (0 : BitVec 4).toNat = 0 := rfl
  omega

theorem and_FF0F_toNat (w : Word) : (w &&& 0xFF0F).toNat = w.toNat / 256 * 256 + w.toNat % 16 := by
  have h : w &&& 0xFF0F = highByte w ++ (0 : BitVec 4) ++ nibble3 w := by
    apply BitVec.eq_of_getLsbD_eq
    intro i hi
    simp only [BitVec.getLsbD_and, BitVec.getLsbD_append, BitVec.getLsbD_extractLsb', highByte, nibble3]
    interval_cases i <;> simp
  rw [h, append_toNat, append_toNat, highByte_toNat, nibble3_toNat]
  have h0 : (0 : BitVec 4).toNat = 0 := rfl
  omega

theorem and_FFFF (w : Word) : w &&& 0xFFFF = w := BitVec.and_allOnes

/-! ### Forms under their masks -/

theorem and_formNnn (op : Nibble) (nnn : Addr12) : formNnn op nnn &&& 0xF000 = op ++ (0 : BitVec 12) := by
  apply BitVec.eq_of_toNat_eq
  have h0 : (0 : BitVec 12).toNat = 0 := rfl
  rw [and_F000_toNat, formNnn_toNat, append_toNat]
  omega

theorem and_formXkk (op : Nibble) (x : RegIdx) (kk : Byte) :
    formXkk op x kk &&& 0xF000 = op ++ (0 : BitVec 12) := by
  apply BitVec.eq_of_toNat_eq
  have h0 : (0 : BitVec 12).toNat = 0 := rfl
  rw [and_F000_toNat, formXkk_toNat, append_toNat]
  omega

theorem and_formXyn (op : Nibble) (x y : RegIdx) (n : Nibble) :
    formXyn op x y n &&& 0xF00F = op ++ (0 : BitVec 8) ++ n := by
  apply BitVec.eq_of_toNat_eq
  have h0 : (0 : BitVec 8).toNat = 0 := rfl
  rw [and_F00F_toNat, formXyn_toNat, append_toNat, append_toNat]
  omega

theorem and_formXyn_major (op : Nibble) (x y : RegIdx) (n : Nibble) :
    formXyn op x y n &&& 0xF000 = op ++ (0 : BitVec 12) := by
  apply BitVec.eq_of_toNat_eq
  have h0 : (0 : BitVec 12).toNat = 0 := rfl
  rw [and_F000_toNat, formXyn_toNat, append_toNat]
  omega

theorem and_formX (op : Nibble) (x : RegIdx) (fn : Byte) :
    formX op x fn &&& 0xF0FF = op ++ (0 : BitVec 4) ++ fn := by
  apply BitVec.eq_of_toNat_eq
  have h0 : (0 : BitVec 4).toNat = 0 := rfl
  rw [and_F0FF_toNat, formX_toNat, append_toNat, append_toNat]
  omega

/-! ### Decoding a word given as a number, one lemma per instruction (30_encoding.md R86) -/

theorem nibble0_of {w : Word} {n : Nat} (h : w.toNat / 4096 = n) : (nibble0 w).toNat = n :=
  (nibble0_toNat w).trans h

theorem nibble3_of {w : Word} {n : Nibble} (h : w.toNat % 16 = n.toNat) : nibble3 w = n :=
  BitVec.eq_of_toNat_eq ((nibble3_toNat w).trans h)

theorem fieldX_of {w : Word} {x : RegIdx} (h : w.toNat / 256 % 16 = x.val) : fieldX w = x :=
  Fin.ext ((fieldX_val w).trans h)

theorem fieldY_of {w : Word} {y : RegIdx} (h : w.toNat / 16 % 16 = y.val) : fieldY w = y :=
  Fin.ext ((fieldY_val w).trans h)

theorem fieldN_of {w : Word} {n : Nat} (h : w.toNat % 16 = n) : fieldN w = n := (fieldN_eq w).trans h

theorem fieldKk_of {w : Word} {kk : Byte} (h : w.toNat % 256 = kk.toNat) : fieldKk w = kk :=
  BitVec.eq_of_toNat_eq ((fieldKk_toNat w).trans h)

theorem functionByte_of {w : Word} {n : Nat} (h : w.toNat % 256 = n) : (fieldKk w).toNat = n :=
  (fieldKk_toNat w).trans h

theorem fieldNnn_of {w : Word} {nnn : Addr12} (h : w.toNat % 4096 = nnn.toNat) : fieldNnn w = nnn :=
  BitVec.eq_of_toNat_eq ((fieldNnn_toNat w).trans h)

theorem decodeWord_jumpTo (w : Word) (nnn : Addr12) (h : w.toNat = 0x1000 + nnn.toNat) :
    decodeWord w = .instr (.jumpTo nnn) := by
  have := nnn.isLt
  simp [decodeWord, nibble0_of (w := w) (n := 1) (by omega), fieldNnn_of (w := w) (nnn := nnn) (by omega)]

theorem decodeWord_callSubroutine (w : Word) (nnn : Addr12) (h : w.toNat = 0x2000 + nnn.toNat) :
    decodeWord w = .instr (.callSubroutine nnn) := by
  have := nnn.isLt
  simp [decodeWord, nibble0_of (w := w) (n := 2) (by omega), fieldNnn_of (w := w) (nnn := nnn) (by omega)]

theorem decodeWord_skipEqual (w : Word) (x : RegIdx) (kk : Byte) (h : w.toNat = 0x3000 + 0x100 * x.val + kk.toNat) :
    decodeWord w = .instr (.skipEqual x kk) := by
  have := kk.isLt
  have := x.isLt
  simp [decodeWord, nibble0_of (w := w) (n := 3) (by omega), fieldX_of (w := w) (x := x) (by omega),
    fieldKk_of (w := w) (kk := kk) (by omega)]

theorem decodeWord_skipNotEqual (w : Word) (x : RegIdx) (kk : Byte) (h : w.toNat = 0x4000 + 0x100 * x.val + kk.toNat) :
    decodeWord w = .instr (.skipNotEqual x kk) := by
  have := kk.isLt
  have := x.isLt
  simp [decodeWord, nibble0_of (w := w) (n := 4) (by omega), fieldX_of (w := w) (x := x) (by omega),
    fieldKk_of (w := w) (kk := kk) (by omega)]

theorem decodeWord_skipRegisterEqual (w : Word) (x y : RegIdx) (h : w.toNat = 0x5000 + 0x100 * x.val + 0x10 * y.val) :
    decodeWord w = .instr (.skipRegisterEqual x y) := by
  have := x.isLt
  have := y.isLt
  simp [decodeWord, decodeXY0, nibble0_of (w := w) (n := 5) (by omega), fieldX_of (w := w) (x := x) (by omega),
    fieldY_of (w := w) (y := y) (by omega), nibble3_of (w := w) (n := 0) (by simpa using by omega)]

theorem decodeWord_setRegister (w : Word) (x : RegIdx) (kk : Byte) (h : w.toNat = 0x6000 + 0x100 * x.val + kk.toNat) :
    decodeWord w = .instr (.setRegister x kk) := by
  have := kk.isLt
  have := x.isLt
  simp [decodeWord, nibble0_of (w := w) (n := 6) (by omega), fieldX_of (w := w) (x := x) (by omega),
    fieldKk_of (w := w) (kk := kk) (by omega)]

theorem decodeWord_addRegister (w : Word) (x : RegIdx) (kk : Byte) (h : w.toNat = 0x7000 + 0x100 * x.val + kk.toNat) :
    decodeWord w = .instr (.addRegister x kk) := by
  have := kk.isLt
  have := x.isLt
  simp [decodeWord, nibble0_of (w := w) (n := 7) (by omega), fieldX_of (w := w) (x := x) (by omega),
    fieldKk_of (w := w) (kk := kk) (by omega)]

theorem decodeWord_copyRegister (w : Word) (x y : RegIdx) (h : w.toNat = 0x8000 + 0x100 * x.val + 0x10 * y.val) :
    decodeWord w = .instr (.copyRegister x y) := by
  have := x.isLt
  have := y.isLt
  simp [decodeWord, decode8, nibble0_of (w := w) (n := 8) (by omega), fieldX_of (w := w) (x := x) (by omega),
    fieldY_of (w := w) (y := y) (by omega), fieldN_of (w := w) (n := 0) (by omega)]

theorem decodeWord_or (w : Word) (x y : RegIdx) (h : w.toNat = 0x8001 + 0x100 * x.val + 0x10 * y.val) :
    decodeWord w = .instr (.or x y) := by
  have := x.isLt
  have := y.isLt
  simp [decodeWord, decode8, nibble0_of (w := w) (n := 8) (by omega), fieldX_of (w := w) (x := x) (by omega),
    fieldY_of (w := w) (y := y) (by omega), fieldN_of (w := w) (n := 1) (by omega)]

theorem decodeWord_and (w : Word) (x y : RegIdx) (h : w.toNat = 0x8002 + 0x100 * x.val + 0x10 * y.val) :
    decodeWord w = .instr (.and x y) := by
  have := x.isLt
  have := y.isLt
  simp [decodeWord, decode8, nibble0_of (w := w) (n := 8) (by omega), fieldX_of (w := w) (x := x) (by omega),
    fieldY_of (w := w) (y := y) (by omega), fieldN_of (w := w) (n := 2) (by omega)]

theorem decodeWord_xor (w : Word) (x y : RegIdx) (h : w.toNat = 0x8003 + 0x100 * x.val + 0x10 * y.val) :
    decodeWord w = .instr (.xor x y) := by
  have := x.isLt
  have := y.isLt
  simp [decodeWord, decode8, nibble0_of (w := w) (n := 8) (by omega), fieldX_of (w := w) (x := x) (by omega),
    fieldY_of (w := w) (y := y) (by omega), fieldN_of (w := w) (n := 3) (by omega)]

theorem decodeWord_addWithCarry (w : Word) (x y : RegIdx) (h : w.toNat = 0x8004 + 0x100 * x.val + 0x10 * y.val) :
    decodeWord w = .instr (.addWithCarry x y) := by
  have := x.isLt
  have := y.isLt
  simp [decodeWord, decode8, nibble0_of (w := w) (n := 8) (by omega), fieldX_of (w := w) (x := x) (by omega),
    fieldY_of (w := w) (y := y) (by omega), fieldN_of (w := w) (n := 4) (by omega)]

theorem decodeWord_subWithBorrow (w : Word) (x y : RegIdx) (h : w.toNat = 0x8005 + 0x100 * x.val + 0x10 * y.val) :
    decodeWord w = .instr (.subWithBorrow x y) := by
  have := x.isLt
  have := y.isLt
  simp [decodeWord, decode8, nibble0_of (w := w) (n := 8) (by omega), fieldX_of (w := w) (x := x) (by omega),
    fieldY_of (w := w) (y := y) (by omega), fieldN_of (w := w) (n := 5) (by omega)]

theorem decodeWord_shiftRight (w : Word) (x y : RegIdx) (h : w.toNat = 0x8006 + 0x100 * x.val + 0x10 * y.val) :
    decodeWord w = .instr (.shiftRight x) := by
  have := x.isLt
  have := y.isLt
  simp [decodeWord, decode8, nibble0_of (w := w) (n := 8) (by omega), fieldX_of (w := w) (x := x) (by omega),
    fieldN_of (w := w) (n := 6) (by omega)]

theorem decodeWord_subWithBorrowReversed (w : Word) (x y : RegIdx) (h : w.toNat = 0x8007 + 0x100 * x.val + 0x10 * y.val) :
    decodeWord w = .instr (.subWithBorrowReversed x y) := by
  have := x.isLt
  have := y.isLt
  simp [decodeWord, decode8, nibble0_of (w := w) (n := 8) (by omega), fieldX_of (w := w) (x := x) (by omega),
    fieldY_of (w := w) (y := y) (by omega), fieldN_of (w := w) (n := 7) (by omega)]

theorem decodeWord_shiftLeft (w : Word) (x y : RegIdx) (h : w.toNat = 0x800E + 0x100 * x.val + 0x10 * y.val) :
    decodeWord w = .instr (.shiftLeft x) := by
  have := x.isLt
  have := y.isLt
  simp [decodeWord, decode8, nibble0_of (w := w) (n := 8) (by omega), fieldX_of (w := w) (x := x) (by omega),
    fieldN_of (w := w) (n := 14) (by omega)]

theorem decodeWord_skipRegisterNotEqual (w : Word) (x y : RegIdx) (h : w.toNat = 0x9000 + 0x100 * x.val + 0x10 * y.val) :
    decodeWord w = .instr (.skipRegisterNotEqual x y) := by
  have := x.isLt
  have := y.isLt
  simp [decodeWord, decodeXY0, nibble0_of (w := w) (n := 9) (by omega), fieldX_of (w := w) (x := x) (by omega),
    fieldY_of (w := w) (y := y) (by omega), nibble3_of (w := w) (n := 0) (by simpa using by omega)]

theorem decodeWord_setAddressRegister (w : Word) (nnn : Addr12) (h : w.toNat = 0xA000 + nnn.toNat) :
    decodeWord w = .instr (.setAddressRegister nnn) := by
  have := nnn.isLt
  simp [decodeWord, nibble0_of (w := w) (n := 10) (by omega), fieldNnn_of (w := w) (nnn := nnn) (by omega)]

theorem decodeWord_jumpWithOffset (w : Word) (nnn : Addr12) (h : w.toNat = 0xB000 + nnn.toNat) :
    decodeWord w = .instr (.jumpWithOffset nnn) := by
  have := nnn.isLt
  simp [decodeWord, nibble0_of (w := w) (n := 11) (by omega), fieldNnn_of (w := w) (nnn := nnn) (by omega)]

theorem decodeWord_randomAnd (w : Word) (x : RegIdx) (kk : Byte) (h : w.toNat = 0xC000 + 0x100 * x.val + kk.toNat) :
    decodeWord w = .instr (.randomAnd x kk) := by
  have := kk.isLt
  have := x.isLt
  simp [decodeWord, nibble0_of (w := w) (n := 12) (by omega), fieldX_of (w := w) (x := x) (by omega),
    fieldKk_of (w := w) (kk := kk) (by omega)]

theorem decodeWord_draw (w : Word) (x y : RegIdx) (n : Nat) (hn : n < 16)
    (h : w.toNat = 0xD000 + 0x100 * x.val + 0x10 * y.val + n) : decodeWord w = .instr (.draw x y n) := by
  have := x.isLt
  have := y.isLt
  simp [decodeWord, nibble0_of (w := w) (n := 13) (by omega), fieldX_of (w := w) (x := x) (by omega),
    fieldY_of (w := w) (y := y) (by omega), fieldN_of (w := w) (n := n) (by omega)]

theorem decodeWord_skipIfKeyDown (w : Word) (x : RegIdx) (h : w.toNat = 0xE09E + 0x100 * x.val) :
    decodeWord w = .instr (.skipIfKeyDown x) := by
  have := x.isLt
  simp [decodeWord, decodeE, nibble0_of (w := w) (n := 14) (by omega), fieldX_of (w := w) (x := x) (by omega),
    functionByte_of (w := w) (n := 158) (by omega)]

theorem decodeWord_skipIfKeyUp (w : Word) (x : RegIdx) (h : w.toNat = 0xE0A1 + 0x100 * x.val) :
    decodeWord w = .instr (.skipIfKeyUp x) := by
  have := x.isLt
  simp [decodeWord, decodeE, nibble0_of (w := w) (n := 14) (by omega), fieldX_of (w := w) (x := x) (by omega),
    functionByte_of (w := w) (n := 161) (by omega)]

theorem decodeWord_readDelayTimer (w : Word) (x : RegIdx) (h : w.toNat = 0xF007 + 0x100 * x.val) :
    decodeWord w = .instr (.readDelayTimer x) := by
  have := x.isLt
  simp [decodeWord, decodeF, nibble0_of (w := w) (n := 15) (by omega), fieldX_of (w := w) (x := x) (by omega),
    functionByte_of (w := w) (n := 7) (by omega)]

theorem decodeWord_blockForKey (w : Word) (x : RegIdx) (h : w.toNat = 0xF00A + 0x100 * x.val) :
    decodeWord w = .instr (.blockForKey x) := by
  have := x.isLt
  simp [decodeWord, decodeF, nibble0_of (w := w) (n := 15) (by omega), fieldX_of (w := w) (x := x) (by omega),
    functionByte_of (w := w) (n := 10) (by omega)]

theorem decodeWord_writeDelayTimer (w : Word) (x : RegIdx) (h : w.toNat = 0xF015 + 0x100 * x.val) :
    decodeWord w = .instr (.writeDelayTimer x) := by
  have := x.isLt
  simp [decodeWord, decodeF, nibble0_of (w := w) (n := 15) (by omega), fieldX_of (w := w) (x := x) (by omega),
    functionByte_of (w := w) (n := 21) (by omega)]

theorem decodeWord_writeSoundTimer (w : Word) (x : RegIdx) (h : w.toNat = 0xF018 + 0x100 * x.val) :
    decodeWord w = .instr (.writeSoundTimer x) := by
  have := x.isLt
  simp [decodeWord, decodeF, nibble0_of (w := w) (n := 15) (by omega), fieldX_of (w := w) (x := x) (by omega),
    functionByte_of (w := w) (n := 24) (by omega)]

theorem decodeWord_addToAddressRegister (w : Word) (x : RegIdx) (h : w.toNat = 0xF01E + 0x100 * x.val) :
    decodeWord w = .instr (.addToAddressRegister x) := by
  have := x.isLt
  simp [decodeWord, decodeF, nibble0_of (w := w) (n := 15) (by omega), fieldX_of (w := w) (x := x) (by omega),
    functionByte_of (w := w) (n := 30) (by omega)]

theorem decodeWord_setAddressToGlyph (w : Word) (x : RegIdx) (h : w.toNat = 0xF029 + 0x100 * x.val) :
    decodeWord w = .instr (.setAddressToGlyph x) := by
  have := x.isLt
  simp [decodeWord, decodeF, nibble0_of (w := w) (n := 15) (by omega), fieldX_of (w := w) (x := x) (by omega),
    functionByte_of (w := w) (n := 41) (by omega)]

theorem decodeWord_storeBCD (w : Word) (x : RegIdx) (h : w.toNat = 0xF033 + 0x100 * x.val) :
    decodeWord w = .instr (.storeBCD x) := by
  have := x.isLt
  simp [decodeWord, decodeF, nibble0_of (w := w) (n := 15) (by omega), fieldX_of (w := w) (x := x) (by omega),
    functionByte_of (w := w) (n := 51) (by omega)]

theorem decodeWord_storeRegisterBlock (w : Word) (x : RegIdx) (h : w.toNat = 0xF055 + 0x100 * x.val) :
    decodeWord w = .instr (.storeRegisterBlock x) := by
  have := x.isLt
  simp [decodeWord, decodeF, nibble0_of (w := w) (n := 15) (by omega), fieldX_of (w := w) (x := x) (by omega),
    functionByte_of (w := w) (n := 85) (by omega)]

theorem decodeWord_loadRegisterBlock (w : Word) (x : RegIdx) (h : w.toNat = 0xF065 + 0x100 * x.val) :
    decodeWord w = .instr (.loadRegisterBlock x) := by
  have := x.isLt
  simp [decodeWord, decodeF, nibble0_of (w := w) (n := 15) (by omega), fieldX_of (w := w) (x := x) (by omega),
    functionByte_of (w := w) (n := 101) (by omega)]

/-! ### Decoding bytes -/

theorem decodeBytes_cons (hi lo : Byte) (rest : List Byte) (i : Instr) :
    decodeBytes (hi :: lo :: rest) = .ok (i, rest) ↔ decodeWord (wordOfBytes hi lo) = .instr i := by
  simp only [decodeBytes]
  cases h : decodeWord (wordOfBytes hi lo) <;> simp

/-- The opcode map has one row for each of the 34 instructions (30_encoding.md R86). -/
theorem opcodeTable_length : opcodeTable.length = 34 := rfl

/-- The mnemonics of the opcode map are distinct. -/
theorem opcodeTable_mnemonics_nodup : (opcodeTable.map OpcodeRow.mnemonic).Nodup := by decide

/-- No word matches two rows (30_encoding.md R84): any two rows disagree on a bit that both their masks fix. -/
theorem opcodeTable_disjoint :
    opcodeTable.Pairwise (fun r q => r.value &&& q.mask ≠ q.value &&& r.mask) := by decide

end Sys2Proof
end

