-- ==== Sys2Proof/Laws/Ops.lean ====
section
/-! SUPPORT. One lemma per shared operation: what the accessors give after each update, the range check, the
operand forms, the cursor directives. -/

namespace Sys2Proof.Machine

/-! ### Registers, stack, display, keypad -/

theorem State.reg_setReg (s : State) (x y : RegIdx) (b : Byte) :
    (s.setReg x b).reg y = if y = x then b else s.reg y := by
  simp only [State.reg, State.setReg, Vector.getElem_set]
  by_cases h : x = y
  · simp [h]
  · simp [Fin.val_ne_of_ne h, Ne.symm h]

@[simp] theorem State.reg_setReg_same (s : State) (x : RegIdx) (b : Byte) : (s.setReg x b).reg x = b := by
  simp [State.reg_setReg]

theorem State.reg_setReg_ne (s : State) {x y : RegIdx} (b : Byte) (h : y ≠ x) :
    (s.setReg x b).reg y = s.reg y := by
  simp [State.reg_setReg, h]

theorem State.stackEntry_setStackEntry (s : State) (j k : Fin 16) (w : Word) :
    (s.setStackEntry j w).stackEntry k = if k = j then w else s.stackEntry k := by
  simp only [State.stackEntry, State.setStackEntry, Vector.getElem_set]
  by_cases h : j = k
  · simp [h]
  · simp [Fin.val_ne_of_ne h, Ne.symm h]

theorem State.keyState_setKey (s : State) (k l : KeyIdx) (b : Bool) :
    (s.setKey k b).keyState l = if l = k then b else s.keyState l := by
  simp only [State.keyState, State.setKey, Vector.getElem_set]
  by_cases h : k = l
  · simp [h]
  · simp [Fin.val_ne_of_ne h, Ne.symm h]

theorem State.cell_setCell (s : State) (r r' : DispRow) (c c' : DispCol) (b : Bool) :
    (s.setCell r c b).cell r' c' = if r' = r ∧ c' = c then b else s.cell r' c' := by
  simp only [State.cell, State.setCell, Vector.getElem_set]
  by_cases h : r = r'
  · subst h
    by_cases h' : c = c'
    · simp [h']
    · simp [Fin.val_ne_of_ne h', Ne.symm h']
  · simp [Fin.val_ne_of_ne h, Ne.symm h]

@[simp] theorem State.cell_clearDisplay (s : State) (r : DispRow) (c : DispCol) :
    s.clearDisplay.cell r c = false := by
  simp [State.cell, State.clearDisplay]

/-! ### The flag -/

theorem State.reg_setFlag (s : State) (f : Bool) (y : RegIdx) :
    (s.setFlag f).reg y = if y = vf then flagByte f else s.reg y :=
  State.reg_setReg s vf y (flagByte f)

/-- With `x` = F the result is what remains in VF (42_alu.md R150). -/
theorem State.reg_setFlagThenReg (s : State) (f : Bool) (x y : RegIdx) (b : Byte) :
    (s.setFlagThenReg f x b).reg y = if y = x then b else if y = vf then flagByte f else s.reg y := by
  simp [State.setFlagThenReg, State.reg_setReg, State.reg_setFlag]

theorem flagByte_toNat (f : Bool) : (flagByte f).toNat = if f then 1 else 0 := by cases f <;> rfl

theorem flagByte_lowBit (a : Byte) : (flagByte (lowBit a)).toNat = a.toNat % 2 := by
  simp only [flagByte_toNat, lowBit, BitVec.getLsbD, Nat.testBit_zero, decide_eq_true_eq]
  split_ifs <;> omega

theorem flagByte_highBit (a : Byte) : (flagByte (highBit a)).toNat = a.toNat / 128 := by
  have := a.isLt
  simp only [flagByte_toNat, highBit, BitVec.getLsbD, Nat.testBit, Nat.shiftRight_eq_div_pow, Nat.one_and_eq_mod_two]
  split_ifs with h <;> simp at h <;> omega

/-! ### Operand forms -/

theorem zextByte_toNat (b : Byte) : (zextByte b).toNat = b.toNat := by
  simp only [zextByte, BitVec.toNat_setWidth]
  omega

theorem zextAddr_toNat (a : Addr12) : (zextAddr a).toNat = a.toNat := by
  simp only [zextAddr, BitVec.toNat_setWidth]
  omega

theorem glyphAddress_toNat (a : Byte) : (glyphAddress a).toNat = 5 * a.toNat := by
  simp only [glyphAddress, BitVec.toNat_mul, BitVec.toNat_ofNat, zextByte_toNat, Config.glyphBytes]
  omega

theorem hundredsDigit_toNat (a : Byte) : (hundredsDigit a).toNat = a.toNat / 100 := by
  simp only [hundredsDigit, BitVec.toNat_ofNat]
  omega

theorem tensDigit_toNat (a : Byte) : (tensDigit a).toNat = a.toNat / 10 % 10 := by
  simp only [tensDigit, BitVec.toNat_ofNat]
  omega

theorem onesDigit_toNat (a : Byte) : (onesDigit a).toNat = a.toNat % 10 := by
  simp only [onesDigit, BitVec.toNat_ofNat]
  omega

theorem carryOut_eq (a b : Byte) : carryOut a b = decide (255 < a.toNat + b.toNat) := by
  have h : (zextByte a + zextByte b).toNat = a.toNat + b.toNat := by
    rw [BitVec.toNat_add, zextByte_toNat, zextByte_toNat]
    omega
  rw [carryOut, h]

/-- Every register and every key number stands in the list written out. -/
theorem mem_allSixteen (k : Fin 16) : k ∈ ([0, 1, 2, 3, 4, 5, 6, 7, 8, 9, 10, 11, 12, 13, 14, 15] : List (Fin 16)) := by
  revert k
  decide

theorem mem_registersUpTo {x i : RegIdx} : i ∈ registersUpTo x ↔ i ≤ x := by
  simp only [registersUpTo, List.mem_filter, decide_eq_true_eq, and_iff_right_iff_imp]
  exact fun _ => mem_allSixteen i

theorem registersUpTo_nodup (x : RegIdx) : (registersUpTo x).Nodup := by
  revert x
  decide

/-- An index above 15 names no key (45_keypad_timers.md R210). -/
theorem State.keyDownAt_iff (s : State) (a : Byte) :
    s.keyDownAt a = true ↔ ∃ k : KeyIdx, k.val = a.toNat ∧ s.keyState k = true := by
  unfold State.keyDownAt
  split
  · rename_i h
    constructor
    · exact fun hk => ⟨⟨a.toNat, h⟩, rfl, hk⟩
    · rintro ⟨k, hk, hd⟩
      have : k = ⟨a.toNat, h⟩ := Fin.ext hk
      rwa [← this]
  · rename_i h
    constructor
    · intro hf
      cases hf
    · rintro ⟨k, hk, -⟩
      exact absurd k.isLt (hk ▸ h)

theorem State.lowestKeyDown_none (s : State) : s.lowestKeyDown = none ↔ ∀ k, s.keyState k = false := by
  simp only [State.lowestKeyDown, List.find?_eq_none, Bool.not_eq_true]
  constructor
  · intro h k
    exact h k (mem_allSixteen k)
  · exact fun h k _ => h k

/-- The key found is down and no lower one is (R212). -/
theorem State.lowestKeyDown_some (s : State) (k : KeyIdx) :
    s.lowestKeyDown = some k ↔ s.keyState k = true ∧ ∀ j, j < k → s.keyState j = false := by
  have main : ∀ f : KeyIdx → Bool, ∀ k,
      [0, 1, 2, 3, 4, 5, 6, 7, 8, 9, 10, 11, 12, 13, 14, 15].find? f = some k → f k = true ∧ ∀ j, j < k → f j = false := by
    intro f k h
    refine ⟨List.find?_some h, fun j hj => ?_⟩
    obtain ⟨-, as, bs, hl, hb⟩ := List.find?_eq_some_iff_append.1 h
    have hmem : j ∈ as := by
      have hs : (as ++ k :: bs).Pairwise (· < ·) := by rw [← hl]; decide
      have hj' : j ∈ as ++ k :: bs := by rw [← hl]; exact mem_allSixteen j
      rcases List.mem_append.1 hj' with h' | h'
      · exact h'
      · have hp := (List.pairwise_append.1 hs).2.1
        rcases List.mem_cons.1 h' with rfl | h'
        · exact absurd hj (lt_irrefl _)
        · exact absurd hj (lt_asymm ((List.pairwise_cons.1 hp).1 j h'))
    simpa using hb j hmem
  constructor
  · exact main s.keyState k
  · rintro ⟨hk, hlow⟩
    cases h : s.lowestKeyDown with
    | none => exact absurd ((State.lowestKeyDown_none s).1 h k) (by simp [hk])
    | some j =>
      obtain ⟨hj, hl⟩ := main s.keyState j h
      rcases lt_trichotomy j k with hlt | heq | hgt
      · simp [hlow j hlt] at hj
      · rw [heq]
      · simp [hl k hgt] at hk

/-! ### The range check and the directives -/

/-- The range check gives the effect when the highest address is in memory, or no byte is accessed (R57). -/
theorem checkRange_of_fits {σ : Type} (s : State) (count : Nat) (e : Host.Outcome σ Fault Refusal)
    (h : 0 < count → s.i.toNat + (count - 1) ≤ 0xFFF) : checkRange s count e = e := by
  unfold checkRange State.ea
  split
  · rename_i hc
    have := h hc.1
    simp only [Config.lastAddress] at hc
    omega
  · rfl

/-- The range check gives the fault with the highest address otherwise (R57). -/
theorem checkRange_of_exceeds {σ : Type} (s : State) (count : Nat) (e : Host.Outcome σ Fault Refusal)
    (h0 : 0 < count) (h : 0xFFF < s.i.toNat + (count - 1)) :
    checkRange s count e = .fault (.memoryOutOfRange (s.i.toNat + (count - 1))) := by
  unfold checkRange State.ea raise
  simp [h0, h]

@[simp] theorem State.applyCursor_stay (s : State) : s.applyCursor .stay = s := rfl
@[simp] theorem State.applyCursor_next (s : State) : s.applyCursor .next = s.setPc (s.pc + 2) := rfl
@[simp] theorem State.applyCursor_skip (s : State) : s.applyCursor .skip = s.setPc (s.pc + 4) := rfl
@[simp] theorem State.applyCursor_jump (s : State) (t : Word) : s.applyCursor (.jump t) = s.setPc t := rfl

@[simp] theorem finish_complete (s : State) (c : Cursor) : finish (complete s c) = .next (s.applyCursor c) := rfl
@[simp] theorem finish_fault (f : Fault) : finish (.fault f) = .fault f := rfl
@[simp] theorem finish_refused (r : Refusal) : finish (.refused r) = .refused r := rfl
@[simp] theorem finish_raise (f : Fault) : finish (raise f) = .fault f := rfl

/-- A directive changes nothing but `pc` (40_sequencer.md R114). -/
theorem State.applyCursor_eq (s : State) (c : Cursor) : s.applyCursor c = s.setPc (s.applyCursor c).pc := by
  cases c <;> rfl

/-- The fetch succeeds exactly when both bytes are in memory (20_memory.md R56). -/
theorem State.fetch_ok (s : State) (h : s.pc.toNat ≤ 0xFFE) : s.fetch = .ok s.wordAtPc := by
  unfold State.fetch
  split
  · rename_i hc
    simp only [Config.lastAddress] at hc
    omega
  · rfl

theorem State.fetch_error (s : State) (h : 0xFFE < s.pc.toNat) : s.fetch = .error (.fetchOutOfRange s.pc) := by
  unfold State.fetch
  split
  · rfl
  · rename_i hc
    simp only [Config.lastAddress] at hc
    omega

end Sys2Proof.Machine
end

