-- ==== Sys2Proof/Laws/Step.lean ====
section
/-! SUPPORT. What a step can do, said once: `exec` and `step` are `execute` and `stepEffect` with the directive
applied, and the cases of a step. -/

namespace Sys2Proof.Machine

/-- `exec` is the effect with its directive applied (40_sequencer.md R113, R114). -/
theorem exec_eq_finish_execute (i : Instr) (s : State) : exec i s = finish (execute i s) := by
  cases i <;> rfl

/-- The step is the step effect with its directive applied (R110). -/
theorem step_eq_finish_stepEffect (s : State) : step s = finish (stepEffect s) := by
  unfold step stepEffect
  cases s.fetch with
  | error f => rfl
  | ok w =>
    cases h : decodeWord w with
    | instr i => simp only [h, exec_eq_finish_execute]
    | invalid n0 n1 n2 n3 => simp only [h, finish_raise]; rfl

/-- An outcome after the directive comes from an effect: with a next state, from a completed one. -/
theorem finish_eq_next {e : Effect} {t : State} (h : finish e = .next t) :
    ∃ u c, e = .next (u, c) ∧ t = u.applyCursor c := by
  match e, h with
  | .next (u, c), h => exact ⟨u, c, rfl, by cases h; rfl⟩

theorem finish_eq_fault {e : Effect} {f : Fault} : finish e = .fault f ↔ e = .fault f := by
  cases e <;> simp [finish]

theorem finish_eq_refused {e : Effect} {r : Refusal} : finish e = .refused r ↔ e = .refused r := by
  cases e <;> simp [finish]

/-- The cases of a step (R110, R239): out of memory, an invalid word, or an instruction. -/
theorem step_cases (s : State) :
    (0xFFE < s.pc.toNat ∧ step s = .fault (.fetchOutOfRange s.pc)) ∨
    (s.pc.toNat ≤ 0xFFE ∧ ∃ n0 n1 n2 n3, decodeWord s.wordAtPc = .invalid n0 n1 n2 n3 ∧
      step s = .fault (.decodeFailure n0 n1 n2 n3)) ∨
    (s.pc.toNat ≤ 0xFFE ∧ ∃ i, decodeWord s.wordAtPc = .instr i ∧ step s = exec i s) := by
  by_cases h : s.pc.toNat ≤ 0xFFE
  · right
    unfold step
    rw [State.fetch_ok s h]
    cases hd : decodeWord s.wordAtPc with
    | instr i => exact .inr ⟨h, i, rfl, by simp [hd]⟩
    | invalid n0 n1 n2 n3 => exact .inl ⟨h, n0, n1, n2, n3, rfl, by simp [hd, raise]⟩
  · left
    have h' : 0xFFE < s.pc.toNat := by omega
    exact ⟨h', by unfold step; rw [State.fetch_error s h']; rfl⟩

end Sys2Proof.Machine
end

