-- ==== Sys2Proof/Laws/Boundary.lean ====
section
/-! SUPPORT. The host's moves: sequences of them, what a step and a key operation as moves can do, and the launch
state of a program (spec/70_reset_and_hazards.md R273). -/

namespace Sys2Proof.Machine

/-! ### Sequences of moves -/

@[simp] theorem performAll_nil (s : State) : performAll [] s = s := rfl

@[simp] theorem performAll_cons (op : BoundaryOp) (ops : List BoundaryOp) (s : State) :
    performAll (op :: ops) s = performAll ops (perform op s).1 := rfl

theorem performAll_append (ops more : List BoundaryOp) (s : State) :
    performAll (ops ++ more) s = performAll more (performAll ops s) := by
  induction ops generalizing s with
  | nil => rfl
  | cons op ops ih => exact ih _

/-- A property every move keeps holds after any sequence of moves. -/
theorem performAll_keeps (P : State → Prop) (h : ∀ op s, P s → P (perform op s).1) (ops : List BoundaryOp)
    (s : State) (hs : P s) : P (performAll ops s) := by
  induction ops generalizing s with
  | nil => exact hs
  | cons op ops ih => exact ih _ (h op s hs)

/-! ### Single moves -/

/-- A step as a move leaves the state as it was, or leads where the step leads (60_exceptions.md R236, R251). -/
theorem performStep_cases (s : State) : (performStep s).1 = s ∨ step s = .next (performStep s).1 := by
  rw [step_eq_finish_stepEffect]
  unfold performStep
  cases stepEffect s with
  | next p => exact .inr rfl
  | fault f => exact .inl rfl
  | refused r => exact .inl rfl

/-- A key operation leaves the state as it was, or writes its one key (R246, R247). -/
theorem performKey_cases (s : State) (k : Nat) (down : Bool) :
    (15 < k ∧ performKey s k down = (s, .keyError (.outOfRangeKeyIndex k))) ∨
    ∃ j : KeyIdx, j.val = k ∧ performKey s k down = (s.setKey j down, .ok) := by
  unfold performKey State.writeKey
  by_cases h : k < 16
  · exact .inr ⟨⟨k, h⟩, rfl, by simp [h]⟩
  · exact .inl ⟨by omega, by simp [h]⟩

/-! ### The launch state -/

@[simp] theorem launch_mem (p : List Byte) : (launch p).mem = State.reset.mem.load p := rfl
@[simp] theorem launch_v (p : List Byte) : (launch p).v = State.reset.v := rfl
@[simp] theorem launch_i (p : List Byte) : (launch p).i = 0 := rfl
@[simp] theorem launch_dt (p : List Byte) : (launch p).dt = 0 := rfl
@[simp] theorem launch_st (p : List Byte) : (launch p).st = 0 := rfl
@[simp] theorem launch_pc (p : List Byte) : (launch p).pc = 0x200 := rfl
@[simp] theorem launch_stack (p : List Byte) : (launch p).stack = State.reset.stack := rfl
@[simp] theorem launch_sp (p : List Byte) : (launch p).sp = 0 := rfl
@[simp] theorem launch_key (p : List Byte) : (launch p).key = State.reset.key := rfl
@[simp] theorem launch_disp (p : List Byte) : (launch p).disp = State.reset.disp := rfl
@[simp] theorem launch_randDraws (p : List Byte) : (launch p).randDraws = State.reset.randDraws := rfl

/-- The launch state is what the two moves reset and `load` lead to, from any state (R273, R276). -/
theorem launch_eq_performAll (p : List Byte) (s : State) : launch p = performAll [.reset, .load p] s := rfl

/-- Every state of a run is one the host can bring about. -/
theorem reachable_of_runState {p : List Byte} {s : State} (h : RunState p s) : Reachable s := by
  obtain ⟨ops, -, rfl⟩ := h
  exact ⟨.reset :: .load p :: ops, rfl⟩

end Sys2Proof.Machine
end

