-- ==== Sys2Proof/Laws/Loops.lean ====
section
/-! SUPPORT. What the loops of the memory and display instructions do: the block transfers byte by byte, and the
parts of the state each loop leaves alone. -/

namespace Sys2Proof.Machine

/-- A property every pass of a loop keeps holds after the loop. -/
theorem foldl_keeps {α β : Type} (P : β → Prop) (f : β → α → β) (l : List α) (s : β) (h0 : P s)
    (h : ∀ t a, a ∈ l → P t → P (f t a)) : P (l.foldl f s) := by
  induction l generalizing s with
  | nil => exact h0
  | cons a l ih =>
    exact ih (f s a) (h s a (by simp) h0) (fun t b hb ht => h t b (by simp [hb]) ht)

/-! ### StoreBCD and StoreRegisterBlock -/

theorem storeDigits_eq (a : Byte) (s : State) : storeDigits a s = { s with mem := (storeDigits a s).mem } := rfl

theorem storeDigits_read (a : Byte) (s : State) (c : Nat) (h : s.i.toNat + 2 < 4096) :
    (storeDigits a s).mem.read c =
      if c = s.i.toNat then hundredsDigit a
      else if c = s.i.toNat + 1 then tensDigit a
      else if c = s.i.toNat + 2 then onesDigit a
      else s.mem.read c := by
  simp only [storeDigits, State.memWrite_mem, State.ea, Memory.read_write]
  split_ifs <;> first | rfl | omega

theorem storeDigits_wf (a : Byte) (s : State) (h : s.mem.wf) : (storeDigits a s).mem.wf :=
  Memory.write_wf _ _ (Memory.write_wf _ _ (Memory.write_wf _ _ h))

/-- A property every store of the block keeps holds after the block. -/
theorem storeRegisters_keeps (P : State → Prop) (x : RegIdx) (s : State) (h0 : P s)
    (h : ∀ t k, k ≤ x → P t → P (t.memWrite (s.i.toNat + k.val) (s.reg k))) : P (storeRegisters x s) :=
  foldl_keeps P _ _ s h0 (fun t k hk ht => h t k (mem_registersUpTo.1 hk) ht)

theorem storeRegisters_eq (x : RegIdx) (s : State) :
    storeRegisters x s = { s with mem := (storeRegisters x s).mem } :=
  storeRegisters_keeps (fun t => t = { s with mem := t.mem }) x s rfl
    (fun t k _ (ht : t = { s with mem := t.mem }) => by rw [ht]; rfl)

theorem storeRegisters_wf (x : RegIdx) (s : State) (h : s.mem.wf) : (storeRegisters x s).mem.wf :=
  storeRegisters_keeps (fun t => t.mem.wf) x s h (fun _ _ _ ht => Memory.write_wf _ _ ht)

/-- A byte no register of the block goes to stays. -/
theorem storeRegisters_read_outside (x : RegIdx) (s : State) (a : Nat)
    (h : ∀ k : RegIdx, k ≤ x → a ≠ s.i.toNat + k.val) : (storeRegisters x s).mem.read a = s.mem.read a :=
  storeRegisters_keeps (fun t => t.mem.read a = s.mem.read a) x s rfl (fun t k hk ht => by
    simp only [State.memWrite_mem, Memory.read_write_ne _ _ (h k hk), ht])

theorem storeRegisters_read_list (l : List RegIdx) (s t : State) (k : RegIdx) (hl : l.Nodup) (hk : k ∈ l)
    (hin : s.i.toNat + k.val < 4096) :
    (l.foldl (fun t i => t.memWrite (s.ea i.val) (s.reg i)) t).mem.read (s.i.toNat + k.val) = s.reg k := by
  induction l generalizing t with
  | nil => simp at hk
  | cons j l ih =>
    obtain ⟨hj, hl⟩ := List.nodup_cons.1 hl
    by_cases hkj : k ∈ l
    · exact ih _ hl hkj
    · have hkj' : k = j := by
        rcases List.mem_cons.1 hk with h | h
        · exact h
        · exact absurd h hkj
      subst hkj'
      refine foldl_keeps (fun u : State => u.mem.read (s.i.toNat + k.val) = s.reg k) _ l _ ?_ ?_
      · exact Memory.read_write_same _ _ hin
      · intro u i hi hu
        have hne : s.i.toNat + k.val ≠ s.i.toNat + i.val := fun h =>
          hkj (by rwa [show k = i from Fin.ext (by omega)])
        rw [State.memWrite_mem, State.ea, Memory.read_write_ne _ _ hne, hu]

/-- `MEM[I + k]` holds `V[k]` afterwards, for every register of the block. -/
theorem storeRegisters_read (x : RegIdx) (s : State) (k : RegIdx) (hk : k ≤ x)
    (hin : s.i.toNat + k.val < 4096) : (storeRegisters x s).mem.read (s.i.toNat + k.val) = s.reg k :=
  storeRegisters_read_list _ s s k (registersUpTo_nodup x) (mem_registersUpTo.2 hk) hin

/-! ### LoadRegisterBlock -/

/-- A property every load of the block keeps holds after the block. -/
theorem loadRegisters_keeps (P : State → Prop) (x : RegIdx) (s : State) (h0 : P s)
    (h : ∀ t k, k ≤ x → P t → P (t.setReg k (s.mem.read (s.i.toNat + k.val)))) : P (loadRegisters x s) :=
  foldl_keeps P _ _ s h0 (fun t k hk ht => h t k (mem_registersUpTo.1 hk) ht)

theorem loadRegisters_eq (x : RegIdx) (s : State) :
    loadRegisters x s = { s with v := (loadRegisters x s).v } :=
  loadRegisters_keeps (fun t => t = { s with v := t.v }) x s rfl
    (fun t k _ (ht : t = { s with v := t.v }) => by rw [ht]; rfl)

/-- A register above `x` stays. -/
theorem loadRegisters_reg_above (x : RegIdx) (s : State) (k : RegIdx) (h : ¬k ≤ x) :
    (loadRegisters x s).reg k = s.reg k :=
  loadRegisters_keeps (fun t => t.reg k = s.reg k) x s rfl (fun t j hj ht => by
    rw [State.reg_setReg_ne _ _ (fun e => h (by rwa [e])), ht])

/-- A register of the block holds its byte afterwards. -/
theorem loadRegisters_reg (x : RegIdx) (s : State) (k : RegIdx) (h : k ≤ x) :
    (loadRegisters x s).reg k = s.mem.read (s.i.toNat + k.val) := by
  have main : ∀ (l : List RegIdx) (t : State), k ∈ l ∨ t.reg k = s.mem.read (s.i.toNat + k.val) →
      (l.foldl (fun t i => t.setReg i (s.memRead (s.ea i.val))) t).reg k = s.mem.read (s.i.toNat + k.val) := by
    intro l
    induction l with
    | nil => intro t ht; simpa using ht
    | cons j l ih =>
      intro t ht
      refine ih _ ?_
      by_cases hjk : k = j
      · subst hjk; exact .inr (State.reg_setReg_same _ _ _)
      · rw [State.reg_setReg_ne _ _ hjk]
        simpa [hjk] using ht
  exact main _ s (.inl (mem_registersUpTo.2 h))

/-! ### Draw -/

/-- What one sprite bit changes: the display and VF. -/
theorem drawBit_eq (a : Byte) (row : DispRow) (sprite : Byte) (s : State) (c : Nat) :
    drawBit a row sprite s c =
      { s with v := (drawBit a row sprite s c).v, disp := (drawBit a row sprite s c).disp } := by
  unfold drawBit drawPixel
  split_ifs <;> rfl

theorem drawBit_reg (a : Byte) (row : DispRow) (sprite : Byte) (s : State) (c : Nat) (r : RegIdx) (h : r ≠ vf) :
    (drawBit a row sprite s c).reg r = s.reg r := by
  unfold drawBit drawPixel
  split_ifs <;> simp [State.reg_setFlag, h]

/-- One sprite bit: the cell it lands on is inverted if the bit is set, every other cell stays. -/
theorem drawBit_cell (a : Byte) (row : DispRow) (sprite : Byte) (s : State) (c : Nat) (r : DispRow) (k : DispCol) :
    (drawBit a row sprite s c).cell r k =
      if r = row ∧ k = displayCol a c then (s.cell r k ^^ spriteBit sprite c) else s.cell r k := by
  unfold drawBit drawPixel
  by_cases hb : spriteBit sprite c = true
  · by_cases hc : s.cell row (displayCol a c) = true
    · by_cases h : r = row ∧ k = displayCol a c
      · obtain ⟨rfl, rfl⟩ := h
        simp [hb, hc, State.cell_setCell]
      · simp [hb, hc, State.cell_setCell, h]
    · by_cases h : r = row ∧ k = displayCol a c
      · obtain ⟨rfl, rfl⟩ := h
        simp [hb, hc, State.cell_setCell]
      · simp [hb, hc, State.cell_setCell, h]
  · simp [hb]

/-- One sprite bit: VF becomes 1 at a collision and is otherwise left alone. -/
theorem drawBit_vf (a : Byte) (row : DispRow) (sprite : Byte) (s : State) (c : Nat) :
    (drawBit a row sprite s c).reg vf =
      if spriteBit sprite c = true ∧ s.cell row (displayCol a c) = true then 1 else s.reg vf := by
  unfold drawBit drawPixel
  by_cases hb : spriteBit sprite c = true <;> by_cases hc : s.cell row (displayCol a c) = true <;>
    simp [hb, hc, State.reg_setFlag, flagByte]

/-- A property every sprite bit keeps holds after the whole sprite. -/
theorem drawSprite_keeps (P : State → Prop) (a b : Byte) (n : Nat) (s : State) (h0 : P s)
    (h : ∀ t row sprite c, P t → P (drawBit a row sprite t c)) : P (drawSprite a b n s) :=
  foldl_keeps P _ _ s h0 (fun t _ _ ht => foldl_keeps P _ _ t ht (fun u c _ hu => h u _ _ c hu))

theorem drawSprite_eq (a b : Byte) (n : Nat) (s : State) :
    drawSprite a b n s = { s with v := (drawSprite a b n s).v, disp := (drawSprite a b n s).disp } := by
  have h : { drawSprite a b n s with v := s.v, disp := s.disp } = s :=
    drawSprite_keeps (fun t => { t with v := s.v, disp := s.disp } = s) a b n s rfl (fun t row sprite c ht => by
      rw [drawBit_eq]
      exact ht)
  generalize drawSprite a b n s = t at h ⊢
  rw [← h]

theorem drawSprite_reg (a b : Byte) (n : Nat) (s : State) (r : RegIdx) (h : r ≠ vf) :
    (drawSprite a b n s).reg r = s.reg r :=
  drawSprite_keeps (fun t => t.reg r = s.reg r) a b n s rfl (fun t row sprite c ht => by
    rw [drawBit_reg _ _ _ _ _ _ h, ht])

/-- VF is 0 or 1 after the sprite, if it was before (10_state.md R22). -/
theorem drawSprite_vf (a b : Byte) (n : Nat) (s : State) (h : s.reg vf = 0 ∨ s.reg vf = 1) :
    (drawSprite a b n s).reg vf = 0 ∨ (drawSprite a b n s).reg vf = 1 :=
  drawSprite_keeps (fun t => t.reg vf = 0 ∨ t.reg vf = 1) a b n s h (fun t row sprite c ht => by
    rw [drawBit_vf]
    split_ifs
    · exact .inr rfl
    · exact ht)

/-! ### Fields storeDigits leaves alone -/

@[simp] theorem storeDigits_v (a : Byte) (s : State) : (storeDigits a s).v = s.v := by rw [storeDigits_eq]
@[simp] theorem storeDigits_i (a : Byte) (s : State) : (storeDigits a s).i = s.i := by rw [storeDigits_eq]
@[simp] theorem storeDigits_dt (a : Byte) (s : State) : (storeDigits a s).dt = s.dt := by rw [storeDigits_eq]
@[simp] theorem storeDigits_st (a : Byte) (s : State) : (storeDigits a s).st = s.st := by rw [storeDigits_eq]
@[simp] theorem storeDigits_pc (a : Byte) (s : State) : (storeDigits a s).pc = s.pc := by rw [storeDigits_eq]
@[simp] theorem storeDigits_stack (a : Byte) (s : State) : (storeDigits a s).stack = s.stack := by rw [storeDigits_eq]
@[simp] theorem storeDigits_sp (a : Byte) (s : State) : (storeDigits a s).sp = s.sp := by rw [storeDigits_eq]
@[simp] theorem storeDigits_key (a : Byte) (s : State) : (storeDigits a s).key = s.key := by rw [storeDigits_eq]
@[simp] theorem storeDigits_disp (a : Byte) (s : State) : (storeDigits a s).disp = s.disp := by rw [storeDigits_eq]
@[simp] theorem storeDigits_randDraws (a : Byte) (s : State) : (storeDigits a s).randDraws = s.randDraws := by rw [storeDigits_eq]

/-! ### Fields storeRegisters leaves alone -/

@[simp] theorem storeRegisters_v (x : RegIdx) (s : State) : (storeRegisters x s).v = s.v := by rw [storeRegisters_eq]
@[simp] theorem storeRegisters_i (x : RegIdx) (s : State) : (storeRegisters x s).i = s.i := by rw [storeRegisters_eq]
@[simp] theorem storeRegisters_dt (x : RegIdx) (s : State) : (storeRegisters x s).dt = s.dt := by rw [storeRegisters_eq]
@[simp] theorem storeRegisters_st (x : RegIdx) (s : State) : (storeRegisters x s).st = s.st := by rw [storeRegisters_eq]
@[simp] theorem storeRegisters_pc (x : RegIdx) (s : State) : (storeRegisters x s).pc = s.pc := by rw [storeRegisters_eq]
@[simp] theorem storeRegisters_stack (x : RegIdx) (s : State) : (storeRegisters x s).stack = s.stack := by rw [storeRegisters_eq]
@[simp] theorem storeRegisters_sp (x : RegIdx) (s : State) : (storeRegisters x s).sp = s.sp := by rw [storeRegisters_eq]
@[simp] theorem storeRegisters_key (x : RegIdx) (s : State) : (storeRegisters x s).key = s.key := by rw [storeRegisters_eq]
@[simp] theorem storeRegisters_disp (x : RegIdx) (s : State) : (storeRegisters x s).disp = s.disp := by rw [storeRegisters_eq]
@[simp] theorem storeRegisters_randDraws (x : RegIdx) (s : State) : (storeRegisters x s).randDraws = s.randDraws := by rw [storeRegisters_eq]

/-! ### Fields loadRegisters leaves alone -/

@[simp] theorem loadRegisters_mem (x : RegIdx) (s : State) : (loadRegisters x s).mem = s.mem := by rw [loadRegisters_eq]
@[simp] theorem loadRegisters_i (x : RegIdx) (s : State) : (loadRegisters x s).i = s.i := by rw [loadRegisters_eq]
@[simp] theorem loadRegisters_dt (x : RegIdx) (s : State) : (loadRegisters x s).dt = s.dt := by rw [loadRegisters_eq]
@[simp] theorem loadRegisters_st (x : RegIdx) (s : State) : (loadRegisters x s).st = s.st := by rw [loadRegisters_eq]
@[simp] theorem loadRegisters_pc (x : RegIdx) (s : State) : (loadRegisters x s).pc = s.pc := by rw [loadRegisters_eq]
@[simp] theorem loadRegisters_stack (x : RegIdx) (s : State) : (loadRegisters x s).stack = s.stack := by rw [loadRegisters_eq]
@[simp] theorem loadRegisters_sp (x : RegIdx) (s : State) : (loadRegisters x s).sp = s.sp := by rw [loadRegisters_eq]
@[simp] theorem loadRegisters_key (x : RegIdx) (s : State) : (loadRegisters x s).key = s.key := by rw [loadRegisters_eq]
@[simp] theorem loadRegisters_disp (x : RegIdx) (s : State) : (loadRegisters x s).disp = s.disp := by rw [loadRegisters_eq]
@[simp] theorem loadRegisters_randDraws (x : RegIdx) (s : State) : (loadRegisters x s).randDraws = s.randDraws := by rw [loadRegisters_eq]

/-! ### Fields drawSprite leaves alone -/

@[simp] theorem drawSprite_mem (a b : Byte) (n : Nat) (s : State) : (drawSprite a b n s).mem = s.mem := by rw [drawSprite_eq]
@[simp] theorem drawSprite_i (a b : Byte) (n : Nat) (s : State) : (drawSprite a b n s).i = s.i := by rw [drawSprite_eq]
@[simp] theorem drawSprite_dt (a b : Byte) (n : Nat) (s : State) : (drawSprite a b n s).dt = s.dt := by rw [drawSprite_eq]
@[simp] theorem drawSprite_st (a b : Byte) (n : Nat) (s : State) : (drawSprite a b n s).st = s.st := by rw [drawSprite_eq]
@[simp] theorem drawSprite_pc (a b : Byte) (n : Nat) (s : State) : (drawSprite a b n s).pc = s.pc := by rw [drawSprite_eq]
@[simp] theorem drawSprite_stack (a b : Byte) (n : Nat) (s : State) : (drawSprite a b n s).stack = s.stack := by rw [drawSprite_eq]
@[simp] theorem drawSprite_sp (a b : Byte) (n : Nat) (s : State) : (drawSprite a b n s).sp = s.sp := by rw [drawSprite_eq]
@[simp] theorem drawSprite_key (a b : Byte) (n : Nat) (s : State) : (drawSprite a b n s).key = s.key := by rw [drawSprite_eq]
@[simp] theorem drawSprite_randDraws (a b : Byte) (n : Nat) (s : State) : (drawSprite a b n s).randDraws = s.randDraws := by rw [drawSprite_eq]

end Sys2Proof.Machine
end

