-- ==== Sys2Proof/Laws/Meanings.lean ====
section
/-! SUPPORT. The cases of the instructions that do not always complete in one way, each said once, so that no
later proof unfolds them: the return, the call, the range check, BlockForKey; and what a completed `exec` is. -/

namespace Sys2Proof.Machine

/-- A completed instruction is a completed effect with its directive applied (40_sequencer.md R113, R114). -/
theorem exec_eq_next {i : Instr} {s t : State} (h : exec i s = .next t) :
    ∃ u c, execute i s = .next (u, c) ∧ t = u.applyCursor c := by
  rw [exec_eq_finish_execute] at h
  exact finish_eq_next h

/-- The three cases of ReturnSubroutine (41_control_flow.md R130; the third is the model's, assumption log 4). -/
theorem runReturnSubroutine_cases (s : State) :
    (s.sp.toNat = 0 ∧ runReturnSubroutine s = .fault .stackUnderflow) ∨
    (∃ j : Fin 16, s.sp.toNat = j.val + 1 ∧
      runReturnSubroutine s = .next (s.setSp (s.sp - 1), .jump (s.stackEntry j))) ∨
    (16 < s.sp.toNat ∧ runReturnSubroutine s = .refused (.stackPointerOutOfRange s.sp)) := by
  unfold runReturnSubroutine
  by_cases h0 : s.sp.toNat = 0
  · exact .inl ⟨h0, by simp [h0, raise]⟩
  · by_cases h1 : s.sp.toNat - 1 < 16
    · exact .inr (.inl ⟨⟨_, h1⟩, by simp; omega, by simp [h0, h1, complete]⟩)
    · exact .inr (.inr ⟨by omega, by simp [h0, h1]⟩)

/-- The three cases of CallSubroutine (R132; the third is the model's, assumption log 4). -/
theorem runCallSubroutine_cases (nnn : Addr12) (s : State) :
    (s.sp.toNat = 16 ∧ runCallSubroutine nnn s = .fault .stackOverflow) ∨
    (∃ j : Fin 16, s.sp.toNat = j.val ∧ runCallSubroutine nnn s =
      .next ((s.setStackEntry j (s.pc + 2)).setSp (s.sp + 1), .jump (zextAddr nnn))) ∨
    (16 < s.sp.toNat ∧ runCallSubroutine nnn s = .refused (.stackPointerOutOfRange s.sp)) := by
  unfold runCallSubroutine
  by_cases h0 : s.sp.toNat = 16
  · exact .inl ⟨h0, by simp [h0, raise]⟩
  · by_cases h1 : s.sp.toNat < 16
    · exact .inr (.inl ⟨⟨_, h1⟩, by simp, by simp [h0, h1, complete]⟩)
    · exact .inr (.inr ⟨by omega, by simp [h0, h1]⟩)

/-- The two cases of the range check (20_memory.md R57). -/
theorem checkRange_cases {σ : Type} (s : State) (n : Nat) (e : Host.Outcome σ Fault Refusal) :
    (0 < n ∧ 0xFFF < s.i.toNat + (n - 1) ∧
      checkRange s n e = .fault (.memoryOutOfRange (s.i.toNat + (n - 1)))) ∨
    ((0 < n → s.i.toNat + (n - 1) ≤ 0xFFF) ∧ checkRange s n e = e) := by
  by_cases h : 0 < n ∧ 0xFFF < s.i.toNat + (n - 1)
  · exact .inl ⟨h.1, h.2, checkRange_of_exceeds s n e h.1 h.2⟩
  · exact .inr ⟨fun h0 => by omega, checkRange_of_fits s n e (fun h0 => by omega)⟩

/-- A range check that lets an effect complete has been met, and the effect is the checked one (R57). -/
theorem checkRange_eq_next {σ : Type} {s : State} {n : Nat} {e : Host.Outcome σ Fault Refusal} {p : σ}
    (h : checkRange s n e = .next p) : (0 < n → s.i.toNat + (n - 1) ≤ 0xFFF) ∧ e = .next p := by
  rcases checkRange_cases s n e with ⟨_, _, he⟩ | ⟨hf, he⟩
  · rw [he] at h
    cases h
  · exact ⟨hf, he ▸ h⟩

/-- The two cases of BlockForKey (45_keypad_timers.md R212). -/
theorem runBlockForKey_cases (x : RegIdx) (s : State) :
    ((∀ k, s.keyState k = false) ∧ runBlockForKey x s = .next (s, .stay)) ∨
    ∃ k, (s.keyState k = true ∧ ∀ j, j < k → s.keyState j = false) ∧
      runBlockForKey x s = .next (s.setReg x (keyByte k), .next) := by
  unfold runBlockForKey
  cases h : s.lowestKeyDown with
  | none => exact .inl ⟨(State.lowestKeyDown_none s).1 h, rfl⟩
  | some k => exact .inr ⟨k, (State.lowestKeyDown_some s k).1 h, rfl⟩

/-- The directive of a skip is Skip or Next (40_sequencer.md R114). -/
theorem skipIf_cases (b : Bool) : (b = true ∧ skipIf b = .skip) ∨ (b = false ∧ skipIf b = .next) := by
  cases b
  · exact .inr ⟨rfl, rfl⟩
  · exact .inl ⟨rfl, rfl⟩

/-- Executing an instruction leaves `pc` alone: only its directive writes it (R113). -/
theorem execute_pc {i : Instr} {s t : State} {c : Cursor} (h : execute i s = .next (t, c)) : t.pc = s.pc := by
  cases i with
  | returnSubroutine =>
    rcases runReturnSubroutine_cases s with ⟨-, e⟩ | ⟨j, -, e⟩ | ⟨-, e⟩ <;> cases e.symm.trans h
    rfl
  | callSubroutine nnn =>
    rcases runCallSubroutine_cases nnn s with ⟨-, e⟩ | ⟨j, -, e⟩ | ⟨-, e⟩ <;> cases e.symm.trans h
    rfl
  | blockForKey x =>
    rcases runBlockForKey_cases x s with ⟨-, e⟩ | ⟨k, -, e⟩ <;> cases e.symm.trans h <;> rfl
  | draw x y n => cases (checkRange_eq_next h).2; simp
  | storeBCD x => cases (checkRange_eq_next h).2; simp
  | storeRegisterBlock x => cases (checkRange_eq_next h).2; simp
  | loadRegisterBlock x => cases (checkRange_eq_next h).2; simp
  | _ => cases h; rfl

/-- Every instruction keeps the canonical form of memory. -/
theorem execute_mem_wf {i : Instr} {s t : State} {c : Cursor} (hs : s.mem.wf)
    (h : execute i s = .next (t, c)) : t.mem.wf := by
  cases i with
  | returnSubroutine =>
    rcases runReturnSubroutine_cases s with ⟨-, e⟩ | ⟨j, -, e⟩ | ⟨-, e⟩ <;> cases e.symm.trans h
    exact hs
  | callSubroutine nnn =>
    rcases runCallSubroutine_cases nnn s with ⟨-, e⟩ | ⟨j, -, e⟩ | ⟨-, e⟩ <;> cases e.symm.trans h
    exact hs
  | blockForKey x =>
    rcases runBlockForKey_cases x s with ⟨-, e⟩ | ⟨k, -, e⟩ <;> cases e.symm.trans h <;> exact hs
  | draw x y n => cases (checkRange_eq_next h).2; rw [drawSprite_mem]; exact hs
  | storeBCD x => cases (checkRange_eq_next h).2; exact storeDigits_wf _ _ hs
  | storeRegisterBlock x => cases (checkRange_eq_next h).2; exact storeRegisters_wf _ _ hs
  | loadRegisterBlock x => cases (checkRange_eq_next h).2; rw [loadRegisters_mem]; exact hs
  | _ => cases h; exact hs

end Sys2Proof.Machine
end

