-- ==== Sys2Proof/Laws/PerInstr.lean ====
section
/-! SUPPORT. Statements about every instruction as syntax, one lemma per constructor. EncodeInRow: the encoding of
an instruction has the fixed bits of its row of the opcode map (spec/30_encoding.md R86, R91), whatever its
operands. -/

namespace Sys2Proof.Laws

/-- The row of the opcode map an instruction belongs to, by its place in the map. -/
def rowOf : Instr → Nat
  | .clear => 0
  | .returnSubroutine => 1
  | .jumpTo _ => 2
  | .callSubroutine _ => 3
  | .skipEqual _ _ => 4
  | .skipNotEqual _ _ => 5
  | .skipRegisterEqual _ _ => 6
  | .setRegister _ _ => 7
  | .addRegister _ _ => 8
  | .copyRegister _ _ => 9
  | .or _ _ => 10
  | .and _ _ => 11
  | .xor _ _ => 12
  | .addWithCarry _ _ => 13
  | .subWithBorrow _ _ => 14
  | .shiftRight _ => 15
  | .subWithBorrowReversed _ _ => 16
  | .shiftLeft _ => 17
  | .skipRegisterNotEqual _ _ => 18
  | .setAddressRegister _ => 19
  | .jumpWithOffset _ => 20
  | .randomAnd _ _ => 21
  | .draw _ _ _ => 22
  | .skipIfKeyDown _ => 23
  | .skipIfKeyUp _ => 24
  | .readDelayTimer _ => 25
  | .blockForKey _ => 26
  | .writeDelayTimer _ => 27
  | .writeSoundTimer _ => 28
  | .addToAddressRegister _ => 29
  | .setAddressToGlyph _ => 30
  | .storeBCD _ => 31
  | .storeRegisterBlock _ => 32
  | .loadRegisterBlock _ => 33

/-- The encoding has the fixed bits of the instruction's row. -/
def EncodeInRow.Statement (i : Instr) : Prop :=
  ∃ row, opcodeTable[rowOf i]? = some row ∧ encode i &&& row.mask = row.value

theorem EncodeInRow.clear : EncodeInRow.Statement (.clear) :=
  ⟨_, rfl, by decide⟩

theorem EncodeInRow.returnSubroutine : EncodeInRow.Statement (.returnSubroutine) :=
  ⟨_, rfl, by decide⟩

theorem EncodeInRow.jumpTo (nnn : Addr12) : EncodeInRow.Statement (.jumpTo nnn) :=
  ⟨_, rfl, (and_formNnn _ _).trans (by decide)⟩

theorem EncodeInRow.callSubroutine (nnn : Addr12) : EncodeInRow.Statement (.callSubroutine nnn) :=
  ⟨_, rfl, (and_formNnn _ _).trans (by decide)⟩

theorem EncodeInRow.skipEqual (x : RegIdx) (kk : Byte) : EncodeInRow.Statement (.skipEqual x kk) :=
  ⟨_, rfl, (and_formXkk _ _ _).trans (by decide)⟩

theorem EncodeInRow.skipNotEqual (x : RegIdx) (kk : Byte) : EncodeInRow.Statement (.skipNotEqual x kk) :=
  ⟨_, rfl, (and_formXkk _ _ _).trans (by decide)⟩

theorem EncodeInRow.skipRegisterEqual (x y : RegIdx) : EncodeInRow.Statement (.skipRegisterEqual x y) :=
  ⟨_, rfl, (and_formXyn _ _ _ _).trans (by decide)⟩

theorem EncodeInRow.setRegister (x : RegIdx) (kk : Byte) : EncodeInRow.Statement (.setRegister x kk) :=
  ⟨_, rfl, (and_formXkk _ _ _).trans (by decide)⟩

theorem EncodeInRow.addRegister (x : RegIdx) (kk : Byte) : EncodeInRow.Statement (.addRegister x kk) :=
  ⟨_, rfl, (and_formXkk _ _ _).trans (by decide)⟩

theorem EncodeInRow.copyRegister (x y : RegIdx) : EncodeInRow.Statement (.copyRegister x y) :=
  ⟨_, rfl, (and_formXyn _ _ _ _).trans (by decide)⟩

theorem EncodeInRow.or (x y : RegIdx) : EncodeInRow.Statement (.or x y) :=
  ⟨_, rfl, (and_formXyn _ _ _ _).trans (by decide)⟩

theorem EncodeInRow.and (x y : RegIdx) : EncodeInRow.Statement (.and x y) :=
  ⟨_, rfl, (and_formXyn _ _ _ _).trans (by decide)⟩

theorem EncodeInRow.xor (x y : RegIdx) : EncodeInRow.Statement (.xor x y) :=
  ⟨_, rfl, (and_formXyn _ _ _ _).trans (by decide)⟩

theorem EncodeInRow.addWithCarry (x y : RegIdx) : EncodeInRow.Statement (.addWithCarry x y) :=
  ⟨_, rfl, (and_formXyn _ _ _ _).trans (by decide)⟩

theorem EncodeInRow.subWithBorrow (x y : RegIdx) : EncodeInRow.Statement (.subWithBorrow x y) :=
  ⟨_, rfl, (and_formXyn _ _ _ _).trans (by decide)⟩

theorem EncodeInRow.shiftRight (x : RegIdx) : EncodeInRow.Statement (.shiftRight x) :=
  ⟨_, rfl, (and_formXyn _ _ _ _).trans (by decide)⟩

theorem EncodeInRow.subWithBorrowReversed (x y : RegIdx) : EncodeInRow.Statement (.subWithBorrowReversed x y) :=
  ⟨_, rfl, (and_formXyn _ _ _ _).trans (by decide)⟩

theorem EncodeInRow.shiftLeft (x : RegIdx) : EncodeInRow.Statement (.shiftLeft x) :=
  ⟨_, rfl, (and_formXyn _ _ _ _).trans (by decide)⟩

theorem EncodeInRow.skipRegisterNotEqual (x y : RegIdx) : EncodeInRow.Statement (.skipRegisterNotEqual x y) :=
  ⟨_, rfl, (and_formXyn _ _ _ _).trans (by decide)⟩

theorem EncodeInRow.setAddressRegister (nnn : Addr12) : EncodeInRow.Statement (.setAddressRegister nnn) :=
  ⟨_, rfl, (and_formNnn _ _).trans (by decide)⟩

theorem EncodeInRow.jumpWithOffset (nnn : Addr12) : EncodeInRow.Statement (.jumpWithOffset nnn) :=
  ⟨_, rfl, (and_formNnn _ _).trans (by decide)⟩

theorem EncodeInRow.randomAnd (x : RegIdx) (kk : Byte) : EncodeInRow.Statement (.randomAnd x kk) :=
  ⟨_, rfl, (and_formXkk _ _ _).trans (by decide)⟩

theorem EncodeInRow.draw (x y : RegIdx) (n : Nat) : EncodeInRow.Statement (.draw x y n) :=
  ⟨_, rfl, (and_formXyn_major _ _ _ _).trans (by decide)⟩

theorem EncodeInRow.skipIfKeyDown (x : RegIdx) : EncodeInRow.Statement (.skipIfKeyDown x) :=
  ⟨_, rfl, (and_formX _ _ _).trans (by decide)⟩

theorem EncodeInRow.skipIfKeyUp (x : RegIdx) : EncodeInRow.Statement (.skipIfKeyUp x) :=
  ⟨_, rfl, (and_formX _ _ _).trans (by decide)⟩

theorem EncodeInRow.readDelayTimer (x : RegIdx) : EncodeInRow.Statement (.readDelayTimer x) :=
  ⟨_, rfl, (and_formX _ _ _).trans (by decide)⟩

theorem EncodeInRow.blockForKey (x : RegIdx) : EncodeInRow.Statement (.blockForKey x) :=
  ⟨_, rfl, (and_formX _ _ _).trans (by decide)⟩

theorem EncodeInRow.writeDelayTimer (x : RegIdx) : EncodeInRow.Statement (.writeDelayTimer x) :=
  ⟨_, rfl, (and_formX _ _ _).trans (by decide)⟩

theorem EncodeInRow.writeSoundTimer (x : RegIdx) : EncodeInRow.Statement (.writeSoundTimer x) :=
  ⟨_, rfl, (and_formX _ _ _).trans (by decide)⟩

theorem EncodeInRow.addToAddressRegister (x : RegIdx) : EncodeInRow.Statement (.addToAddressRegister x) :=
  ⟨_, rfl, (and_formX _ _ _).trans (by decide)⟩

theorem EncodeInRow.setAddressToGlyph (x : RegIdx) : EncodeInRow.Statement (.setAddressToGlyph x) :=
  ⟨_, rfl, (and_formX _ _ _).trans (by decide)⟩

theorem EncodeInRow.storeBCD (x : RegIdx) : EncodeInRow.Statement (.storeBCD x) :=
  ⟨_, rfl, (and_formX _ _ _).trans (by decide)⟩

theorem EncodeInRow.storeRegisterBlock (x : RegIdx) : EncodeInRow.Statement (.storeRegisterBlock x) :=
  ⟨_, rfl, (and_formX _ _ _).trans (by decide)⟩

theorem EncodeInRow.loadRegisterBlock (x : RegIdx) : EncodeInRow.Statement (.loadRegisterBlock x) :=
  ⟨_, rfl, (and_formX _ _ _).trans (by decide)⟩

end Sys2Proof.Laws
end

