-- ==== Sys2Proof/Laws/Sprite.lean ====
section
/-! SUPPORT. What the two loops of Draw do to the display and to VF (spec/44_display.md R201): each sprite bit
lands on a cell of its own, so the loops equal one exclusive or per cell. -/

namespace Sys2Proof.Machine

theorem displayCol_inj {a : Byte} {c d : Nat} (hc : c < 64) (hd : d < 64) (h : displayCol a c = displayCol a d) :
    c = d := by
  have h' : (a.toNat + c) % 64 = (a.toNat + d) % 64 := congrArg Fin.val h
  omega

theorem displayRow_inj {b : Byte} {r q : Nat} (hr : r < 32) (hq : q < 32) (h : displayRow b r = displayRow b q) :
    r = q := by
  have h' : (b.toNat + r) % 32 = (b.toNat + q) % 32 := congrArg Fin.val h
  omega

/-- The first `m` bits of a sprite row. -/
def drawBits (a : Byte) (row : DispRow) (sprite : Byte) (m : Nat) (s : State) : State :=
  (List.range m).foldl (drawBit a row sprite) s

theorem drawBits_succ (a : Byte) (row : DispRow) (sprite : Byte) (m : Nat) (s : State) :
    drawBits a row sprite (m + 1) s = drawBit a row sprite (drawBits a row sprite m s) m := by
  simp [drawBits, List.range_succ]

/-- A cell no bit of the row lands on stays. -/
theorem drawBits_cell_miss (a : Byte) (row : DispRow) (sprite : Byte) (m : Nat) (s : State) (r : DispRow)
    (k : DispCol) (h : ∀ c < m, ¬(r = row ∧ k = displayCol a c)) :
    (drawBits a row sprite m s).cell r k = s.cell r k := by
  induction m with
  | zero => rfl
  | succ m ih =>
    rw [drawBits_succ, drawBit_cell, if_neg (h m (Nat.lt_succ_self m)), ih (fun c hc => h c (by omega))]

/-- The cell a bit of the row lands on is exclusive-ored with it. -/
theorem drawBits_cell_hit (a : Byte) (row : DispRow) (sprite : Byte) (m : Nat) (s : State) (c : Nat) (hc : c < m)
    (hm : m ≤ 64) :
    (drawBits a row sprite m s).cell row (displayCol a c) =
      (s.cell row (displayCol a c) ^^ spriteBit sprite c) := by
  induction m with
  | zero => omega
  | succ m ih =>
    rw [drawBits_succ, drawBit_cell]
    by_cases hcm : c = m
    · subst hcm
      rw [if_pos ⟨rfl, rfl⟩, drawBits_cell_miss]
      rintro d hd ⟨-, h⟩
      have := displayCol_inj (by omega) (by omega) h
      omega
    · rw [if_neg (fun h => hcm (displayCol_inj (by omega) (by omega) h.2)), ih (by omega) (by omega)]

/-- VF becomes 1 when a bit of the row meets a set cell, and stays otherwise. -/
theorem drawBits_vf (a : Byte) (row : DispRow) (sprite : Byte) (m : Nat) (s : State) (hm : m ≤ 64) :
    (drawBits a row sprite m s).reg vf =
      if ∃ c < m, spriteBit sprite c = true ∧ s.cell row (displayCol a c) = true then 1 else s.reg vf := by
  induction m with
  | zero => simp [drawBits]
  | succ m ih =>
    have hcell : (drawBits a row sprite m s).cell row (displayCol a m) = s.cell row (displayCol a m) := by
      refine drawBits_cell_miss _ _ _ _ _ _ _ ?_
      rintro d hd ⟨-, h⟩
      have := displayCol_inj (by omega) (by omega) h
      omega
    rw [drawBits_succ, drawBit_vf, hcell, ih (by omega)]
    by_cases h : spriteBit sprite m = true ∧ s.cell row (displayCol a m) = true
    · rw [if_pos h, if_pos ⟨m, Nat.lt_succ_self m, h⟩]
    · rw [if_neg h]
      congr 1
      refine propext ⟨fun ⟨c, hc, hb⟩ => ⟨c, by omega, hb⟩, fun ⟨c, hc, hb⟩ => ?_⟩
      have : c ≠ m := fun e => h (e ▸ hb)
      exact ⟨c, by omega, hb⟩

theorem drawSprite_succ (a b : Byte) (n : Nat) (s : State) :
    drawSprite a b (n + 1) s =
      drawBits a (displayRow b n) (s.mem.read (s.i.toNat + n)) 8 (drawSprite a b n s) := by
  have h : drawSprite a b (n + 1) s = drawSpriteRow a b (drawSprite a b n s) n := by
    simp [drawSprite, List.range_succ]
  rw [h, drawSpriteRow, State.memRead, State.ea, drawSprite_mem, drawSprite_i]
  rfl

/-- A cell no bit of the sprite lands on stays (44_display.md R201). -/
theorem drawSprite_cell_miss (a b : Byte) (n : Nat) (s : State) (row : DispRow) (col : DispCol)
    (h : ∀ r < n, ∀ c < 8, ¬(row = displayRow b r ∧ col = displayCol a c)) :
    (drawSprite a b n s).cell row col = s.cell row col := by
  induction n with
  | zero => rfl
  | succ n ih =>
    rw [drawSprite_succ, drawBits_cell_miss _ _ _ _ _ _ _ (h n (Nat.lt_succ_self n)),
      ih (fun r hr => h r (by omega))]

/-- The cell a bit of the sprite lands on is exclusive-ored with it (R201). -/
theorem drawSprite_cell_hit (a b : Byte) (n : Nat) (s : State) (r c : Nat) (hr : r < n) (hn : n ≤ 32) (hc : c < 8) :
    (drawSprite a b n s).cell (displayRow b r) (displayCol a c) =
      (s.cell (displayRow b r) (displayCol a c) ^^ spriteBit (s.mem.read (s.i.toNat + r)) c) := by
  induction n with
  | zero => omega
  | succ n ih =>
    rw [drawSprite_succ]
    by_cases hrn : r = n
    · subst hrn
      rw [drawBits_cell_hit _ _ _ _ _ _ hc (by omega), drawSprite_cell_miss]
      rintro q hq _ _ ⟨h, -⟩
      have := displayRow_inj (by omega) (by omega) h
      omega
    · rw [drawBits_cell_miss, ih (by omega) (by omega)]
      rintro _ _ ⟨h, -⟩
      exact hrn (displayRow_inj (by omega) (by omega) h)

/-- A set bit of the sprite meets a set cell (R201). -/
def Collides (a b : Byte) (n : Nat) (s : State) : Prop :=
  ∃ r < n, ∃ c < 8, spriteBit (s.mem.read (s.i.toNat + r)) c = true ∧
    s.cell (displayRow b r) (displayCol a c) = true

/-- VF becomes 1 when a set bit of the sprite meets a set cell, and stays otherwise (R201). -/
theorem drawSprite_vf_cases (a b : Byte) (n : Nat) (s : State) (hn : n ≤ 32) :
    (Collides a b n s → (drawSprite a b n s).reg vf = 1) ∧
    (¬Collides a b n s → (drawSprite a b n s).reg vf = s.reg vf) := by
  induction n with
  | zero => exact ⟨fun ⟨r, hr, _⟩ => absurd hr (Nat.not_lt_zero r), fun _ => rfl⟩
  | succ n ih =>
    have hcell : ∀ c, (drawSprite a b n s).cell (displayRow b n) (displayCol a c) =
        s.cell (displayRow b n) (displayCol a c) := by
      intro c
      refine drawSprite_cell_miss _ _ _ _ _ _ ?_
      rintro q hq _ _ ⟨h, -⟩
      have := displayRow_inj (by omega) (by omega) h
      omega
    obtain ⟨ih1, ih0⟩ := ih (by omega)
    rw [drawSprite_succ, drawBits_vf _ _ _ _ _ (by omega)]
    simp only [hcell]
    by_cases h : ∃ c < 8, spriteBit (s.mem.read (s.i.toNat + n)) c = true ∧
        s.cell (displayRow b n) (displayCol a c) = true
    · rw [if_pos h]
      exact ⟨fun _ => rfl, fun hno => absurd ⟨n, Nat.lt_succ_self n, h⟩ hno⟩
    · rw [if_neg h]
      refine ⟨fun ⟨r, hr, hb⟩ => ih1 ⟨r, ?_, hb⟩, fun hno => ih0 (fun ⟨r, hr, hb⟩ => hno ⟨r, by omega, hb⟩)⟩
      have : r ≠ n := fun e => h (e ▸ hb)
      omega

end Sys2Proof.Machine
end

