-- ==== Sys2Proof/Tests/Slice0.lean ====
section
/-! SUPPORT. Tests with the words and results of spec/95_test_vectors.md (part 2), and for every obligation with
hypotheses a state that meets them. -/

namespace Sys2Proof.Tests

open Sys2Proof.Machine Sys2Proof.Claims

/-! ### Building small states -/

/-- A state with some registers set. -/
def withRegs (s : State) (l : List (RegIdx × Byte)) : State := l.foldl (fun t p => t.setReg p.1 p.2) s

/-- A state with some memory bytes set. -/
def withBytes (s : State) (l : List (Nat × Byte)) : State := l.foldl (fun t p => t.memWrite p.1 p.2) s

/-- A state with some cells lit. -/
def withCells (s : State) (l : List (DispRow × DispCol)) : State := l.foldl (fun t p => t.setCell p.1 p.2 true) s

/-- A state with some keys down. -/
def withKeys (s : State) (l : List KeyIdx) : State := l.foldl (fun t k => t.setKey k true) s

/-- Reset with some registers set. -/
abbrev regs (l : List (RegIdx × Byte)) : State := withRegs State.reset l

/-- Something read from the next state, if there is one. -/
def after {α : Type} (o : Host.Outcome State Fault Refusal) (f : State → α) : Option α :=
  match o with
  | .next t => some (f t)
  | _ => none

/-- The fault, if there is one. -/
def faultOf (o : Host.Outcome State Fault Refusal) : Option Fault :=
  match o with
  | .fault f => some f
  | _ => none

/-- One step of the word `w` placed where `s` fetches, and what `f` reads afterwards. -/
def run {α : Type} (w : Nat) (s : State) (f : State → α) : Option α := after (step (s.withFetchWord 16 w)) f

/-- The fault of one step of the word `w` placed where `s` fetches. -/
def runFault (w : Nat) (s : State) : Option Fault := faultOf (step (s.withFetchWord 16 w))

/-- Two registers and `pc`. -/
abbrev two (x y : RegIdx) (t : State) : Byte × Byte × Word := (t.reg x, t.reg y, t.pc)

/-! ### WellFormed: the one check, on both sides of its bound (30_encoding.md R82) -/

theorem test_wellFormed_refuses_row_count_16 : ¬(Instr.draw 0 0 16).WellFormed := by decide
theorem test_wellFormed_accepts_row_count_15 : (Instr.draw 0 0 15).WellFormed := by decide

/-! ### Decoding: every constructor, from the words of 95_test_vectors.md 2.1 -/

theorem test_decode_family_0_to_2 :
    Decodes 0x00E0 .clear ∧ Decodes 0x00EE .returnSubroutine ∧ Decodes 0x1FFF (.jumpTo 0xFFF) ∧
    Decodes 0x2ABC (.callSubroutine 0xABC) := by unfold Decodes; decide

theorem test_decode_skips :
    Decodes 0x3A7F (.skipEqual 0xA 0x7F) ∧ Decodes 0x4F00 (.skipNotEqual 0xF 0x00) ∧
    Decodes 0x5120 (.skipRegisterEqual 1 2) ∧ Decodes 0x9120 (.skipRegisterNotEqual 1 2) ∧
    Decodes 0xE19E (.skipIfKeyDown 1) ∧ Decodes 0xE1A1 (.skipIfKeyUp 1) := by unfold Decodes; decide

theorem test_decode_family_8 :
    Decodes 0x8AB1 (.or 0xA 0xB) ∧ Decodes 0x8AB2 (.and 0xA 0xB) ∧ Decodes 0x8AB3 (.xor 0xA 0xB) ∧
    Decodes 0x8AB4 (.addWithCarry 0xA 0xB) ∧ Decodes 0x8AB5 (.subWithBorrow 0xA 0xB) ∧
    Decodes 0x8AB6 (.shiftRight 0xA) ∧ Decodes 0x8A06 (.shiftRight 0xA) ∧
    Decodes 0x8AB7 (.subWithBorrowReversed 0xA 0xB) ∧ Decodes 0x8ABE (.shiftLeft 0xA) := by unfold Decodes; decide

theorem test_decode_registers :
    Decodes 0x6FFF (.setRegister 0xF 0xFF) ∧ Decodes 0x7000 (.addRegister 0 0) ∧
    Decodes 0x8000 (.copyRegister 0 0) ∧ Decodes 0x80F0 (.copyRegister 0 0xF) ∧
    Decodes 0xC30F (.randomAnd 3 0x0F) := by unfold Decodes; decide

theorem test_decode_address_and_display :
    Decodes 0xA250 (.setAddressRegister 0x250) ∧ Decodes 0xB300 (.jumpWithOffset 0x300) ∧
    Decodes 0xD012 (.draw 0 1 2) ∧ Decodes 0xDFF0 (.draw 0xF 0xF 0) := by unfold Decodes; decide

theorem test_decode_family_F :
    Decodes 0xF007 (.readDelayTimer 0) ∧ Decodes 0xF30A (.blockForKey 3) ∧ Decodes 0xF315 (.writeDelayTimer 3) ∧
    Decodes 0xF318 (.writeSoundTimer 3) ∧ Decodes 0xF21E (.addToAddressRegister 2) ∧
    Decodes 0xF029 (.setAddressToGlyph 0) ∧ Decodes 0xF033 (.storeBCD 0) ∧
    Decodes 0xF155 (.storeRegisterBlock 1) ∧ Decodes 0xF265 (.loadRegisterBlock 2) := by unfold Decodes; decide

theorem test_decode_invalid_words :
    decodeWord 0x0000 = .invalid 0 0 0 0 ∧ decodeWord 0x01E0 = .invalid 0 1 0xE 0 ∧
    decodeWord 0x512F = .invalid 5 1 2 0xF ∧ decodeWord 0x8008 = .invalid 8 0 0 8 ∧
    decodeWord 0x800F = .invalid 8 0 0 0xF ∧ decodeWord 0x9001 = .invalid 9 0 0 1 ∧
    decodeWord 0xE0A0 = .invalid 0xE 0 0xA 0 ∧ decodeWord 0xF01F = .invalid 0xF 0 1 0xF := by decide

theorem test_encode_words :
    encode (.draw 0xA 0xB 0xC) = 0xDABC ∧ encode (.skipEqual 3 0x2A) = 0x332A ∧
    encode (.shiftRight 0xA) = 0x8A06 ∧ encode (.subWithBorrowReversed 0xA 0xB) = 0x8AB7 := by decide

theorem test_decodeTableWord : decodeTableWord 16 0x600A = some (.setRegister 0 0x0A) ∧
    decodeTableWord 16 0xF056 = none := by decide

theorem test_decodeBytes : decodeBytes [0x60, 0x0A, 0x70] = .ok (.setRegister 0 0x0A, [0x70]) ∧
    decodeBytes [0x60] = .error .tooFewBytes := by decide

/-! ### Registers and arithmetic (95_test_vectors.md 2.2) -/

theorem test_setRegister : run 0x6F42 .reset (two 15 0) = some (0x42, 0, 0x202) := by decide
theorem test_addRegister_wraps : run 0x7001 (regs [(0, 0xFF), (15, 5)]) (two 0 15) = some (0, 5, 0x202) := by decide
theorem test_copyRegister : run 0x80F0 (regs [(15, 9)]) (two 0 15) = some (9, 9, 0x202) := by decide
theorem test_or : run 0x8011 (regs [(0, 0xF0), (1, 0x0F), (15, 7)]) (two 0 15) = some (0xFF, 7, 0x202) := by decide
theorem test_and : run 0x8012 (regs [(0, 0xF0), (1, 0x3C), (15, 7)]) (two 0 15) = some (0x30, 7, 0x202) := by decide
theorem test_xor : run 0x8013 (regs [(0, 0xF0), (1, 0x3C), (15, 7)]) (two 0 15) = some (0xCC, 7, 0x202) := by decide
theorem test_addWithCarry : run 0x8014 (regs [(0, 0xFF), (1, 2)]) (two 0 15) = some (1, 1, 0x202) := by decide
theorem test_addWithCarry_into_vf : run 0x8FF4 (regs [(15, 0x90)]) (two 15 0) = some (0x20, 0, 0x202) := by decide
theorem test_subWithBorrow : run 0x8015 (regs [(0, 3), (1, 5)]) (two 0 15) = some (0xFE, 0, 0x202) := by decide
theorem test_subWithBorrow_equal : run 0x8015 (regs [(0, 7), (1, 7), (15, 1)]) (two 0 15) = some (0, 0, 0x202) := by
  decide
theorem test_shiftRight : run 0x82A6 (regs [(2, 5), (10, 0xFF)]) (two 2 15) = some (2, 1, 0x202) := by decide
theorem test_shiftRight_of_vf : run 0x8F06 (regs [(15, 7)]) (two 15 0) = some (3, 0, 0x202) := by decide
theorem test_subWithBorrowReversed : run 0x8017 (regs [(0, 3), (1, 5)]) (two 0 15) = some (2, 1, 0x202) := by decide
theorem test_subWithBorrowReversed_reads_vf : run 0x80F7 (regs [(0, 1), (15, 4)]) (two 0 15) = some (3, 1, 0x202) := by
  decide
theorem test_shiftLeft : run 0x82AE (regs [(2, 1), (10, 0xFF)]) (two 2 15) = some (2, 0, 0x202) := by decide
theorem test_shiftLeft_of_vf : run 0x8F0E (regs [(15, 0x81)]) (two 15 0) = some (2, 0, 0x202) := by decide
/-- The byte of the random source is given here: 0xAB masked with 0x0F (R162). -/
theorem test_randomAnd_mask : (randomAndWith 0xAB 3 0x0F State.reset).reg 3 = 0x0B := by decide
theorem test_randomAnd_draws_once : run 0xC300 (regs [(3, 0x77)]) (fun t => (t.randDraws, t.pc)) = some (1, 0x202) := by
  decide

/-! ### Control transfer (95_test_vectors.md 2.3) -/

theorem test_return : run 0x00EE ((State.reset.setSp 16).setStackEntry 15 0x0ABC) (fun t => (t.pc, t.sp)) =
    some (0x0ABC, 15) := by decide
theorem test_return_underflow : runFault 0x00EE .reset = some .stackUnderflow := by decide
theorem test_jumpTo : run 0x1201 .reset (fun t => t.pc) = some 0x201 := by decide
theorem test_call : run 0x2FFF (State.reset.setPc 0x201) (fun t => (t.pc, t.sp, t.stackEntry 0)) =
    some (0xFFF, 1, 0x203) := by decide
theorem test_call_overflow : runFault 0x2300 (State.reset.setSp 16) = some .stackOverflow := by decide
theorem test_skipEqual : run 0x332A (regs [(3, 0x2A)]) (·.pc) = some 0x204 ∧
    run 0x332A (regs [(3, 0x2B)]) (·.pc) = some 0x202 := by decide
theorem test_skipNotEqual : run 0x432A (regs [(3, 0x2A)]) (·.pc) = some 0x202 ∧
    run 0x4300 (regs [(3, 0x2A)]) (·.pc) = some 0x204 := by decide
theorem test_skipRegisterEqual : run 0x5120 (regs [(1, 7), (2, 7)]) (·.pc) = some 0x204 ∧
    run 0x5120 (regs [(1, 7), (2, 8)]) (·.pc) = some 0x202 := by decide
theorem test_skipRegisterNotEqual : run 0x9120 (regs [(1, 7), (2, 8)]) (·.pc) = some 0x204 ∧
    run 0x9330 (regs [(3, 0x99)]) (·.pc) = some 0x202 := by decide
theorem test_jumpWithOffset : run 0xB300 (regs [(0, 2), (3, 0x50)]) (·.pc) = some 0x302 ∧
    run 0xBFFF (regs [(0, 0xFF)]) (·.pc) = some 0x10FE := by decide
theorem test_skip_past_the_end : run 0x3000 (State.reset.setPc 0xFFE) (·.pc) = some 0x1002 := by decide
theorem test_fetch_out_of_range : faultOf (step (State.reset.setPc 0xFFF)) = some (.fetchOutOfRange 0xFFF) := by decide
theorem test_decode_failure : runFault 0x5121 (regs [(1, 7), (2, 7)]) = some (.decodeFailure 5 1 2 1) := by decide

/-! ### Address register and memory (95_test_vectors.md 2.4) -/

theorem test_setAddressRegister : run 0xAFFF .reset (fun t => (t.i, t.pc)) = some (0xFFF, 0x202) := by decide
theorem test_addToAddressRegister : run 0xF21E ((regs [(2, 1)]).setI 0xFFF) (·.i) = some 0x1000 ∧
    run 0xF21E ((regs [(2, 0xFF)]).setI 0xFF01) (·.i) = some 0 := by decide
theorem test_setAddressToGlyph : run 0xF029 (regs [(0, 0xF)]) (·.i) = some 0x4B ∧
    run 0xF029 (regs [(0, 0xFF)]) (·.i) = some 0x4FB := by decide
theorem test_storeBCD : run 0xF033 ((regs [(0, 0xC7)]).setI 0xFFD)
    (fun t => (t.memRead 0xFFD, t.memRead 0xFFE, t.memRead 0xFFF)) = some (1, 9, 9) := by decide
theorem test_storeBCD_fault : runFault 0xF033 ((regs [(0, 0xC7)]).setI 0xFFE) = some (.memoryOutOfRange 0x1000) := by
  decide
theorem test_storeRegisterBlock : run 0xF155 ((regs [(0, 1), (1, 2), (2, 3)]).setI 0x250)
    (fun t => (t.memRead 0x250, t.memRead 0x251, t.memRead 0x252, t.i)) = some (1, 2, 0, 0x250) := by decide
theorem test_storeRegisterBlock_fault : runFault 0xF055 ((regs [(0, 1)]).setI 0xFFFF) =
    some (.memoryOutOfRange 0xFFFF) := by decide
theorem test_loadRegisterBlock :
    run 0xF265 (withBytes ((regs [(3, 0x77)]).setI 0x300) [(0x300, 2), (0x301, 3), (0x302, 4), (0x303, 5)])
      (fun t => (t.reg 0, t.reg 2, t.reg 3, t.i)) = some (2, 4, 0x77, 0x300) := by decide
theorem test_loadRegisterBlock_fault : runFault 0xF165 (withBytes (State.reset.setI 0xFFF) [(0xFFF, 0x5A)]) =
    some (.memoryOutOfRange 0x1000) := by decide

/-! ### Display (95_test_vectors.md 2.5) -/

theorem test_clear : run 0x00E0 (withCells (regs [(15, 1)]) [(0, 0), (31, 63)])
    (fun t => (t.cell 0 0, t.cell 31 63, t.reg 15)) = some (false, false, 1) := by decide
/-- `D012` with `V0` = 63, `V1` = 31 and the sprite C0 80: wrap-around on both axes. -/
theorem test_draw_wraps :
    run 0xD012 (withBytes ((regs [(0, 0x3F), (1, 0x1F)]).setI 0x300) [(0x300, 0xC0), (0x301, 0x80)])
      (fun t => (t.cell 31 63, t.cell 31 0, t.cell 0 63, t.cell 0 0, t.reg 15)) =
        some (true, true, true, false, 0) := by decide
/-- `DFF1` with VF = 3 at the lit cell (3, 3): the coordinates are the old VF, and the collision is reported. -/
theorem test_draw_at_vf :
    run 0xDFF1 (withCells (withBytes ((regs [(15, 3)]).setI 0x300) [(0x300, 0x80)]) [(3, 3)])
      (fun t => (t.cell 3 3, t.reg 15, t.pc)) = some (false, 1, 0x202) := by decide

/-! ### Keypad and timers (95_test_vectors.md 2.6) -/

theorem test_skipIfKeyDown : run 0xE19E (withKeys (regs [(1, 0x0F)]) [15]) (·.pc) = some 0x204 ∧
    run 0xE19E (withKeys (regs [(1, 0x17)]) [7]) (·.pc) = some 0x202 := by decide
theorem test_skipIfKeyUp : run 0xE1A1 (withKeys (regs [(1, 5)]) [5]) (·.pc) = some 0x202 ∧
    run 0xE1A1 (withKeys (regs [(1, 0x17)]) [7]) (·.pc) = some 0x204 := by decide
theorem test_blockForKey_waits : run 0xF30A .reset (two 3 0) = some (0, 0, 0x200) := by decide
theorem test_blockForKey_lowest : run 0xF30A (withKeys (regs [(3, 0x55)]) [2, 9, 12]) (two 3 0) =
    some (2, 0, 0x202) := by decide
theorem test_readDelayTimer : run 0xF407 (State.reset.setDt 0x3C) (fun t => (t.reg 4, t.dt)) =
    some (0x3C, 0x3C) := by decide
theorem test_writeDelayTimer : run 0xF315 (regs [(3, 7)]) (fun t => (t.dt, t.st)) = some (7, 0) := by decide
theorem test_writeSoundTimer : run 0xF318 (regs [(3, 0x1E)]) (fun t => (t.dt, t.st)) = some (0, 0x1E) := by decide

/-! ### Host operations (95_test_vectors.md 2.7) -/

theorem test_key_down : ((perform (.keyDown 15) .reset).1.keyState 15, (perform (.keyDown 15) .reset).2) =
    (true, .ok) := by decide
theorem test_key_up : (perform (.keyUp 7) (withKeys .reset [7])).1.keyState 7 = false := by decide
theorem test_key_rejected : (perform (.keyUp 255) .reset).2 = .keyError (.outOfRangeKeyIndex 255) ∧
    (KeyError.outOfRangeKeyIndex 255).code = 6 := by decide
theorem test_tick : ((perform .tickTimers ((State.reset.setDt 5).setSt 2)).1.dt,
    (perform .tickTimers ((State.reset.setDt 1).setSt 0)).1.st) = (4, 0) := by decide
theorem test_load : (((perform (.load [0x60, 0x0A, 0x70]) .reset).1.memRead 0x202),
    ((perform (.load [0x60, 0x0A, 0x70]) .reset).1.memRead 0x203)) = (0x70, 0) := by decide
/-- Program P0 of 95_test_vectors.md: two steps from its launch state. -/
theorem test_launch_P0 : ((performAll [.step, .step] (launch [0x60, 0x0A, 0x70, 0x05])).reg 0,
    (performAll [.step, .step] (launch [0x60, 0x0A, 0x70, 0x05])).pc) = (15, 0x204) := by decide
theorem test_run_has_no_second_load : BoundaryOp.inRun (.load []) = false ∧ BoundaryOp.inRun .reset = false := by
  decide
theorem test_load_then_step : (perform .step (perform (.load []) .reset).1).2 = .fault (.decodeFailure 0 0 0 0) := by
  decide
theorem test_step_returns_its_directive :
    (perform .step (State.reset.withFetchWord 16 0x332A)).2 = .cursor .next ∧
    (perform .step ((regs [(3, 0x2A)]).withFetchWord 16 0x332A)).2 = .cursor .skip ∧
    (perform .step (State.reset.withFetchWord 16 0xF30A)).2 = .cursor .stay ∧
    (perform .step (State.reset.withFetchWord 16 0x1ABC)).2 = .cursor (.jump 0xABC) := by decide

/-! ### Witnesses: for every obligation with hypotheses, a state and operands that meet them, each clause at a
boundary value of its range -/

/-- A word at address `a`. -/
abbrev wordAt (s : State) (a : Nat) (hi lo : Byte) : State := withBytes s [(a, hi), (a + 1, lo)]

theorem witness_DecodeInvertsEncode : (Instr.draw 15 15 15).WellFormed ∧ (Instr.jumpTo 0xFFF).WellFormed := by decide

theorem witness_EncodeInvertsDecode_clauses : decodeWord 0x8AB6 = .instr (.shiftRight 10) ∧
    isShift (.shiftRight 10) = true ∧ decodeWord 0x8AB7 = .instr (.subWithBorrowReversed 10 11) ∧
    decodeWord 0xF056 = .invalid 0xF 0 5 6 := by decide

theorem witness_OpcodeMapDecidesDecoding_row : ∃ row ∈ opcodeTable, (0x00EE : Word) &&& row.mask = row.value := by decide

theorem witness_OpcodeMapDecidesDecoding_noRow : ∀ row ∈ opcodeTable, (0x00EF : Word) &&& row.mask ≠ row.value := by
  decide

theorem witness_InvalidWordsAreTheSixSets : decodeWord 0x0FFF = .invalid 0 0xF 0xF 0xF ∧
    decodeWord 0x5001 = .invalid 5 0 0 1 ∧ decodeWord 0x8008 = .invalid 8 0 0 8 ∧
    decodeWord 0x900F = .invalid 9 0 0 0xF ∧ decodeWord 0xE09F = .invalid 0xE 0 9 0xF ∧
    decodeWord 0xF0FF = .invalid 0xF 0 0xF 0xF := by decide

theorem witness_StepRunsTheDecodedInstruction : let s := wordAt (State.reset.setPc 0xFFE) 0xFFE 0x60 0x0A
    s.pc.toNat ≤ 0xFFE ∧
    decodeBytes [s.mem.read s.pc.toNat, s.mem.read (s.pc.toNat + 1)] = .ok (.setRegister 0 0x0A, []) := by decide

theorem witness_StepFaultsBeforeExecution_fetch : 0xFFE < (State.reset.setPc 0xFFF).pc.toNat := by decide

theorem witness_StepFaultsBeforeExecution_decode : let s := wordAt (State.reset.setPc 0xFFE) 0xFFE 0x51 0x21
    s.pc.toNat ≤ 0xFFE ∧ s.mem.read s.pc.toNat = 0x51 ∧ s.mem.read (s.pc.toNat + 1) = 0x21 ∧
    ∀ row ∈ opcodeTable, ((0x51 : Byte) ++ (0x21 : Byte)) &&& row.mask ≠ row.value := by decide

theorem witness_PlacedWordIsTheInstructionRun : (Instr.draw 1 2 15).WellFormed ∧
    ((State.reset.setPc 0xFFF).withFetchWord 16 (encode (.draw 1 2 15)).toNat).pc = 0x200 ∧
    ((State.reset.setPc 0xFFE).withFetchWord 16 (encode (.draw 1 2 15)).toNat).pc = 0xFFE := by decide

theorem witness_StepResultIsPrecise_next : ∃ t, step (State.reset.withFetchWord 16 0x6F42) = .next t := ⟨_, rfl⟩
theorem witness_StepResultIsPrecise_fault : step (State.reset.withFetchWord 16 0x00EE) = .fault .stackUnderflow := rfl
theorem witness_StepResultIsPrecise_refused : step ((State.reset.setSp 17).withFetchWord 16 0x00EE) =
    .refused (.stackPointerOutOfRange 17) := rfl

theorem witness_DirectivesFollowTheTable : (∃ t, execute (.blockForKey 3) State.reset = .next (t, .stay)) ∧
    (∃ t, execute (.skipEqual 3 0) State.reset = .next (t, .skip)) ∧
    (∃ t, execute .clear State.reset = .next (t, .next)) ∧
    ∃ t, execute (.callSubroutine 0x300) State.reset = .next (t, .jump 0x300) :=
  ⟨⟨_, rfl⟩, ⟨_, rfl⟩, ⟨_, rfl⟩, ⟨_, rfl⟩⟩

/-- SP at each end of each clause: 0; 1 and 16; 17 and 255. -/
theorem witness_ReturnPopsTheStack : State.reset.sp.toNat = 0 ∧ (State.reset.setSp 1).sp.toNat = (0 : Fin 16).val + 1 ∧
    (State.reset.setSp 16).sp.toNat = (15 : Fin 16).val + 1 ∧ 16 < (State.reset.setSp 17).sp.toNat ∧
    16 < (State.reset.setSp 255).sp.toNat := by decide

theorem witness_JumpToSetsPc : (0xFFF : Addr12).toNat = 0xFFF := by decide

/-- SP at each end of each clause: 16; 0 and 15; 17 and 255. -/
theorem witness_CallPushesTheReturnAddress : (State.reset.setSp 16).sp.toNat = 16 ∧
    State.reset.sp.toNat = (0 : Fin 16).val ∧ (State.reset.setSp 15).sp.toNat = (15 : Fin 16).val ∧
    16 < (State.reset.setSp 17).sp.toNat ∧ 16 < (State.reset.setSp 255).sp.toNat := by decide

theorem witness_SkipOnImmediate : (regs [(3, 0x2A)]).reg 3 = 0x2A ∧ (regs [(3, 0x2B)]).reg 3 ≠ 0x2A := by decide

theorem witness_SkipOnRegisters : (regs [(1, 7), (2, 7)]).reg 1 = (regs [(1, 7), (2, 7)]).reg 2 ∧
    (regs [(1, 7), (2, 8)]).reg 1 ≠ (regs [(1, 7), (2, 8)]).reg 2 := by decide

/-- SP 0 and 15 before the call; entries on both sides of the pushed one. -/
theorem witness_ReturnUndoesCall_entries : (1 : Fin 16).val ≠ State.reset.sp.toNat ∧
    (14 : Fin 16).val ≠ (State.reset.setSp 15).sp.toNat ∧ (15 : Fin 16).val ≠ (State.reset.setSp 3).sp.toNat := by decide

theorem witness_ReturnUndoesCall : (∃ t, exec (.callSubroutine 0x300) State.reset = .next t) ∧
    ∃ t, exec (.callSubroutine 0x300) (State.reset.setSp 15) = .next t := ⟨⟨_, rfl⟩, ⟨_, rfl⟩⟩

theorem witness_SelfJumpChangesNothing : let s := wordAt (State.reset.setPc 0xFFE) 0xFFE 0x1F 0xFE
    s.pc.toNat = (0xFFE : Addr12).toNat ∧ (0xFFE : Addr12).toNat ≤ 0xFFE ∧
    decodeBytes [s.mem.read (0xFFE : Addr12).toNat, s.mem.read ((0xFFE : Addr12).toNat + 1)] =
      .ok (.jumpTo 0xFFE, []) := by decide

/-- `x` other than F, for the flag clauses of the arithmetic laws. -/
theorem witness_flag_clauses : (0 : RegIdx) ≠ 15 ∧ (14 : RegIdx) ≠ 15 := by decide

theorem witness_StoreBCDStoresTheDigits : (State.reset.setI 0xFFD).i.toNat + 2 ≤ 0xFFF ∧
    0xFFF < (State.reset.setI 0xFFE).i.toNat + 2 := by decide

theorem witness_StoreRegisterBlockStoresInOrder :
    (State.reset.setI 0xFF0).i.toNat + (15 : RegIdx).val ≤ 0xFFF ∧ (15 : RegIdx) ≤ 15 ∧
    0xFFF < (State.reset.setI 0xFF1).i.toNat + (15 : RegIdx).val ∧
    (State.reset.setI 0xFFF).i.toNat + (0 : RegIdx).val ≤ 0xFFF := by decide

theorem witness_LoadRegisterBlockLoadsInOrder :
    (State.reset.setI 0xFF0).i.toNat + (15 : RegIdx).val ≤ 0xFFF ∧ (15 : RegIdx) ≤ 15 ∧
    0xFFF < (State.reset.setI 0xFFF).i.toNat + (1 : RegIdx).val := by decide

/-- Program P6 of 95_test_vectors.md at its fourth step: V0, V1 = 12 08, I = 0x208, pc = 0x206. -/
theorem witness_StoreIsSeenByTheNextFetch : let s := ((regs [(0, 0x12), (1, 0x08)]).setI 0x208).setPc 0x206
    (∃ t, exec (.storeRegisterBlock 1) s = .next t) ∧ s.i.toNat + (0 : RegIdx).val = s.pc.toNat + 2 ∧
    (1 : RegIdx).val = (0 : RegIdx).val + 1 ∧ (1 : RegIdx) ≤ 1 ∧
    decodeBytes [s.reg 0, s.reg 1] = .ok (.jumpTo 0x208, []) := ⟨⟨_, rfl⟩, by decide⟩

/-- Two ways to the same memory: a byte written, or written after another value. -/
theorem witness_CanonicalMemoriesAreEqualData : let m := State.reset.mem.write 0xFFF 1
    let m' := (State.reset.mem.write 0xFFF 2).write 0xFFF 1
    m.wf ∧ m'.wf ∧ m.read 0xFFF = m'.read 0xFFF := by decide

/-- A sprite of 15 rows that ends at 0xFFF, and one of no row at any `I`. -/
theorem witness_DrawXorsTheSprite : let s := State.reset.setI 0xFF1
    (15 < 16 ∧ s.i.toNat + (15 - 1) ≤ 0xFFF) ∧ LandsOn s 0 1 14 7 14 7 ∧ ¬0 < (0 : Nat) := by
  unfold LandsOn; decide

/-- The collision clauses: the sprite 80 at (0, 0), lit and not lit. -/
theorem witness_DrawXorsTheSprite_collision :
    let s := withCells (withBytes (State.reset.setI 0x300) [(0x300, 0x80)]) [(0, 0)]
    LandsOn s 0 1 0 0 0 0 ∧ SpriteBitAt s 0 0 = true ∧ s.cell 0 0 = true := by unfold LandsOn SpriteBitAt; decide

theorem witness_DrawXorsTheSprite_noCollision : let s := withBytes (State.reset.setI 0x300) [(0x300, 0x80)]
    SpriteBitAt s 0 0 = true ∧ ∀ row col, s.cell row col = false := by
  exact ⟨rfl, fun row col => by simp [withBytes, State.cell, State.memWrite, State.setI, State.reset]⟩

theorem witness_DrawRangeCheck : (0 < 15 ∧ 0xFFF < (State.reset.setI 0xFF2).i.toNat + (15 - 1)) ∧
    (0 < 1 ∧ 0xFFF < (State.reset.setI 0x1000).i.toNat + (1 - 1)) := by decide

theorem witness_DrawTwiceRestoresTheDisplay : let s := withBytes (State.reset.setI 0x300) [(0x300, 0x80)]
    (0 : RegIdx) ≠ 15 ∧ (1 : RegIdx) ≠ 15 ∧ 1 < 16 ∧ (∃ t, exec (.draw 0 1 1) s = .next t) ∧
    (∀ row col, s.cell row col = false) ∧ SpriteBitAt s 0 0 = true :=
  ⟨by decide, by decide, by decide, ⟨_, rfl⟩, witness_DrawXorsTheSprite_noCollision.2, rfl⟩

/-- A key index at each end of the keypad, and one above it. -/
theorem witness_KeySkips : (∃ k : KeyIdx, k.val = ((withKeys (regs [(1, 0x0F)]) [15]).reg 1).toNat ∧
      (withKeys (regs [(1, 0x0F)]) [15]).keyState k = true) ∧
    ¬∃ k : KeyIdx, k.val = ((withKeys (regs [(1, 0x10)]) [0]).reg 1).toNat ∧
      (withKeys (regs [(1, 0x10)]) [0]).keyState k = true := by decide

theorem witness_BlockForKeyTakesTheLowestKey : (∀ k, State.reset.keyState k = false) ∧
    (withKeys .reset [15]).keyState 15 = true ∧ (∀ j : KeyIdx, j < 15 → (withKeys .reset [15]).keyState j = false) ∧
    (withKeys .reset [0, 15]).keyState 0 = true := by decide

theorem witness_FaultsAreExactlyThoseListed :
    exec .returnSubroutine State.reset = .fault .stackUnderflow ∧
    exec (.callSubroutine 0x200) (State.reset.setSp 16) = .fault .stackOverflow ∧
    exec (.draw 0 1 2) (State.reset.setI 0xFFF) = .fault (.memoryOutOfRange 0x1000) ∧
    exec (.storeBCD 0) (State.reset.setI 0xFFE) = .fault (.memoryOutOfRange 0x1000) ∧
    exec (.storeRegisterBlock 1) (State.reset.setI 0xFFF) = .fault (.memoryOutOfRange 0x1000) ∧
    exec (.loadRegisterBlock 1) (State.reset.setI 0xFFF) = .fault (.memoryOutOfRange 0x1000) :=
  ⟨rfl, rfl, rfl, rfl, rfl, rfl⟩

theorem witness_EveryInstructionKeepsItsFootprint :
    ∃ t, exec (.loadRegisterBlock 2) (State.reset.setI 0x300) = .next t := ⟨_, rfl⟩

/-- A flag writer and another instruction, neither with VF as its destination. -/
theorem witness_OnlyFlagWritersTouchVF :
    (15 ∉ destinations (.addWithCarry 0 15) ∧ flagWriter (.addWithCarry 0 15) = true ∧
      ∃ t, exec (.addWithCarry 0 15) State.reset = .next t) ∧
    15 ∉ destinations (.or 14 15) ∧ flagWriter (.or 14 15) = false ∧ ∃ t, exec (.or 14 15) State.reset = .next t :=
  ⟨⟨by decide, rfl, _, rfl⟩, by decide, rfl, _, rfl⟩

/-- The bytes on both sides of the three stored ones. -/
theorem witness_OnlyStoredBytesChange : (∃ t, exec (.storeBCD 0) (State.reset.setI 0xFFD) = .next t) ∧
    0xFFC < (State.reset.setI 0xFFD).i.toNat ∧
    (State.reset.setI 0xFFD).i.toNat + storedBytes (.storeBCD 0) ≤ 0x1000 := ⟨⟨_, rfl⟩, by decide, by decide⟩

theorem witness_OnlyClearAndDrawWriteTheDisplay : (∃ t, exec (.or 0 1) State.reset = .next t) ∧
    Instr.or 0 1 ≠ .clear ∧ (∀ x y n, Instr.or 0 1 ≠ .draw x y n) ∧
    BoundaryOp.tickTimers ≠ .reset ∧ BoundaryOp.tickTimers ≠ .step :=
  ⟨⟨_, rfl⟩, by decide, (fun _ _ _ h => (nomatch h)), by decide, by decide⟩

theorem witness_OnlyKeyOperationsWriteTheKeypad : (∃ t, exec (.skipIfKeyDown 0) State.reset = .next t) ∧
    BoundaryOp.step ≠ .reset ∧ ∀ k, BoundaryOp.step ≠ .keyDown k ∧ BoundaryOp.step ≠ .keyUp k :=
  ⟨⟨_, rfl⟩, by decide, fun _ => ⟨fun h => (nomatch h), fun h => (nomatch h)⟩⟩

/-- SP is 1: entry 0 agrees, entry 1 is stale and differs. -/
theorem witness_StaleStackEntriesAreNeverObserved :
    let s := (State.reset.setSp 1).setStackEntry 1 0x202
    let s' := (State.reset.setSp 1).setStackEntry 1 0x404
    AgreeBelowSp s s' ∧ s ≠ s' := by unfold AgreeBelowSp; decide

/-- A call at the last fetchable address, SP at 15: the next state has SP 16 and a stack entry 0x1000. -/
theorem witness_StepKeepsTheInvariant : let s := wordAt ((State.reset.setPc 0xFFE).setSp 15) 0xFFE 0x23 0x00
    s.Inv ∧ (∃ t, step s = .next t) ∧ after (step s) (fun t => (t.sp, t.stackEntry 15)) = some (16, 0x1000) :=
  ⟨⟨by decide, by decide, by decide, by decide⟩, ⟨_, rfl⟩, by decide⟩

/-- The state of the invariant's witness is none that a reset leaves. -/
theorem witness_HostMovesKeepTheInvariant : ((State.reset.setSp 16).setPc 0x10FE).Inv ∧
    (State.reset.setSp 16).setPc 0x10FE ≠ State.reset := ⟨⟨by decide, by decide, by decide, by decide⟩, by decide⟩

/-- A run of the program 1200: a key pressed, a step. -/
theorem witness_ReachableStatesMeetTheInvariant_run :
    RunState [0x12, 0x00] (perform .step (perform (.keyDown 7) (launch [0x12, 0x00])).1).1 :=
  ⟨[.keyDown 7, .step], by decide, rfl⟩

theorem witness_ReachableStatesMeetTheInvariant : Reachable (perform .step (perform (.load [0x12, 0x00]) .reset).1).1 :=
  ⟨[.load [0x12, 0x00], .step], rfl⟩

theorem witness_NoStepIsRefusedUnderTheInvariant : ((State.reset.setSp 16).setPc 0x10FE).Inv :=
  ⟨by decide, by decide, by decide, by decide⟩

/-- A program of two bytes, and one with more. -/
theorem witness_LoadCopiesAndZeroFills_launch : decodeBytes [0x12, 0x00] = .ok (.jumpTo 0x200, []) := by decide

/-- Both ends of each key clause: 16 rejected, 0 and 15 accepted. -/
theorem witness_KeyOperationsWriteOneKey : 15 < 16 ∧ (0 : KeyIdx).val = 0 ∧ (15 : KeyIdx).val = 15 := by decide

end Sys2Proof.Tests
end

section
/-! SUPPORT. The frame of each state operation (spec/10_state.md R21 to R32), said once, and from these the frame
of every instruction. -/

namespace Sys2Proof.Claims

open Sys2Proof.Machine

variable {c : Changed}

/-! ### The frame of one operation -/

theorem Frame.refl (c : Changed) (s : State) : Frame c s s := by simp [Frame]

theorem Frame.trans {s t u : State} (h : Frame c s t) (h' : Frame c t u) : Frame c s u := by
  obtain ⟨hregs, hmem, hi, hdt, hst, hstack, hsp, hdisp, hkey, hrand⟩ := h
  obtain ⟨hregs', hmem', hi', hdt', hst', hstack', hsp', hdisp', hkey', hrand'⟩ := h'
  exact ⟨fun r hr => (hregs' r hr).trans (hregs r hr), fun h a => (hmem' h a).trans (hmem h a),
    fun h => (hi' h).trans (hi h), fun h => (hdt' h).trans (hdt h), fun h => (hst' h).trans (hst h),
    fun h j => (hstack' h j).trans (hstack h j), fun h => (hsp' h).trans (hsp h),
    fun h row col => (hdisp' h row col).trans (hdisp h row col), fun k => (hkey' k).trans (hkey k),
    fun h => (hrand' h).trans (hrand h)⟩

variable (s : State)

theorem frame_setReg {x : RegIdx} (h : x ∈ c.regs) (b : Byte) : Frame c s (s.setReg x b) :=
  ⟨fun _ hr => State.reg_setReg_ne s b (ne_of_mem_of_not_mem h hr).symm, by simp⟩

theorem frame_setFlag (h : 15 ∈ c.regs) (f : Bool) : Frame c s (s.setFlag f) := frame_setReg s h (flagByte f)

theorem frame_setFlagThenReg {x : RegIdx} (hx : x ∈ c.regs) (h : 15 ∈ c.regs) (f : Bool) (b : Byte) :
    Frame c s (s.setFlagThenReg f x b) :=
  (frame_setFlag s h f).trans (frame_setReg _ hx b)

theorem frame_memWrite (h : c.mem = true) (a : Nat) (b : Byte) : Frame c s (s.memWrite a b) := by simp [Frame, h]

theorem frame_setI (h : c.i = true) (a : Word) : Frame c s (s.setI a) := by simp [Frame, h]

theorem frame_setDt (h : c.dt = true) (b : Byte) : Frame c s (s.setDt b) := by simp [Frame, h]

theorem frame_setSt (h : c.st = true) (b : Byte) : Frame c s (s.setSt b) := by simp [Frame, h]

theorem frame_setStackEntry (h : c.stack = true) (j : Fin 16) (a : Word) : Frame c s (s.setStackEntry j a) := by
  simp [Frame, h]

theorem frame_setSp (h : c.sp = true) (b : Byte) : Frame c s (s.setSp b) := by simp [Frame, h]

theorem frame_setCell (h : c.display = true) (row : DispRow) (col : DispCol) (b : Bool) :
    Frame c s (s.setCell row col b) := by
  simp [Frame, h]

theorem frame_clearDisplay (h : c.display = true) : Frame c s s.clearDisplay := by simp [Frame, h]

theorem frame_drawRandom (h : c.random = true) : Frame c s s.drawRandom := by simp [Frame, h]

theorem frame_setPc (a : Word) : Frame c s (s.setPc a) := by simp [Frame]

/-- A directive writes `pc`, which no frame speaks of (40_sequencer.md R114). -/
theorem frame_applyCursor (d : Cursor) : Frame c s (s.applyCursor d) :=
  s.applyCursor_eq d ▸ frame_setPc s _

/-! ### The frame of the loops -/

theorem frame_storeDigits (h : c.mem = true) (a : Byte) : Frame c s (storeDigits a s) :=
  ((frame_memWrite s h _ _).trans (frame_memWrite _ h _ _)).trans (frame_memWrite _ h _ _)

theorem frame_storeRegisters (h : c.mem = true) (x : RegIdx) : Frame c s (storeRegisters x s) :=
  storeRegisters_keeps (Frame c s) x s (.refl c s) (fun t _ _ ht => ht.trans (frame_memWrite t h _ _))

theorem frame_loadRegisters {x : RegIdx} (h : ∀ k, k ≤ x → k ∈ c.regs) : Frame c s (loadRegisters x s) :=
  loadRegisters_keeps (Frame c s) x s (.refl c s) (fun t k hk ht => ht.trans (frame_setReg t (h k hk) _))

theorem frame_drawBit (h : 15 ∈ c.regs) (hd : c.display = true) (a : Byte) (row : DispRow) (sprite : Byte) (k : Nat) :
    Frame c s (drawBit a row sprite s k) := by
  unfold drawBit drawPixel
  split_ifs
  · exact (frame_setFlag s h true).trans (frame_setCell _ hd _ _ _)
  · exact frame_setCell s hd _ _ _
  · exact .refl c s

theorem frame_drawSprite (h : 15 ∈ c.regs) (hd : c.display = true) (a b : Byte) (n : Nat) :
    Frame c s (drawSprite a b n s) :=
  drawSprite_keeps (Frame c s) a b n s (.refl c s) (fun t _ _ _ ht => ht.trans (frame_drawBit t h hd _ _ _ _))

/-! ### The frame of an instruction -/

/-- An instruction's effect, before its directive, stays in its footprint. -/
theorem execute_frame {i : Instr} {s t : State} {d : Cursor} (h : execute i s = .next (t, d)) :
    Frame (footprint i) s t := by
  cases i with
  | clear => cases h; exact frame_clearDisplay s rfl
  | returnSubroutine =>
    rcases runReturnSubroutine_cases s with ⟨-, e⟩ | ⟨j, -, e⟩ | ⟨-, e⟩ <;> cases e.symm.trans h
    exact frame_setSp s rfl _
  | callSubroutine nnn =>
    rcases runCallSubroutine_cases nnn s with ⟨-, e⟩ | ⟨j, -, e⟩ | ⟨-, e⟩ <;> cases e.symm.trans h
    exact (frame_setStackEntry s rfl _ _).trans (frame_setSp _ rfl _)
  | jumpTo | jumpWithOffset | skipEqual | skipNotEqual | skipRegisterEqual | skipRegisterNotEqual | skipIfKeyDown
  | skipIfKeyUp => cases h; exact .refl _ s
  | setRegister | addRegister | copyRegister | or | and | xor | readDelayTimer =>
    cases h; exact frame_setReg s (List.mem_singleton.2 rfl) _
  | addWithCarry | subWithBorrow | subWithBorrowReversed | shiftRight | shiftLeft =>
    cases h; exact frame_setFlagThenReg s (by simp [footprint]) (by simp [footprint]) _ _
  | randomAnd =>
    cases h; exact (frame_drawRandom s rfl).trans (frame_setReg _ (List.mem_singleton.2 rfl) _)
  | blockForKey x =>
    rcases runBlockForKey_cases x s with ⟨-, e⟩ | ⟨k, -, e⟩ <;> cases e.symm.trans h
    · exact .refl _ s
    · exact frame_setReg s (List.mem_singleton.2 rfl) _
  | setAddressRegister | addToAddressRegister | setAddressToGlyph => cases h; exact frame_setI s rfl _
  | writeDelayTimer => cases h; exact frame_setDt s rfl _
  | writeSoundTimer => cases h; exact frame_setSt s rfl _
  | storeBCD => cases (checkRange_eq_next h).2; exact frame_storeDigits s rfl _
  | storeRegisterBlock => cases (checkRange_eq_next h).2; exact frame_storeRegisters s rfl _
  | loadRegisterBlock => cases (checkRange_eq_next h).2; exact frame_loadRegisters s (by simp [footprint])
  | draw =>
    cases (checkRange_eq_next h).2
    exact (frame_setFlag s (List.mem_singleton.2 rfl) _).trans
      (frame_drawSprite _ (List.mem_singleton.2 rfl) rfl _ _ _)

/-- A completed instruction stays in its footprint. -/
theorem exec_frame {i : Instr} {s t : State} (h : exec i s = .next t) : Frame (footprint i) s t := by
  obtain ⟨u, d, he, rfl⟩ := exec_eq_next h
  exact (execute_frame he).trans (frame_applyCursor u d)

/-! ### What a frame says of whole fields -/

/-- No frame lets the keypad change (10_state.md R32). -/
theorem Frame.key_eq {s t : State} (h : Frame c s t) : t.key = s.key := by
  obtain ⟨-, -, -, -, -, -, -, -, hkey, -⟩ := h
  exact Vector.ext fun k hk => hkey ⟨k, hk⟩

theorem Frame.stack_eq {s t : State} (h : Frame c s t) (hc : c.stack = false) : t.stack = s.stack := by
  obtain ⟨-, -, -, -, -, hstack, -⟩ := h
  exact Vector.ext fun j hj => hstack hc ⟨j, hj⟩

theorem Frame.sp_eq {s t : State} (h : Frame c s t) (hc : c.sp = false) : t.sp = s.sp := by
  obtain ⟨-, -, -, -, -, -, hsp, -⟩ := h
  exact hsp hc

theorem Frame.st_eq {s t : State} (h : Frame c s t) (hc : c.st = false) : t.st = s.st := by
  obtain ⟨-, -, -, -, hst, -⟩ := h
  exact hst hc

theorem Frame.reg_eq {s t : State} (h : Frame c s t) {r : RegIdx} (hr : r ∉ c.regs) : t.reg r = s.reg r := by
  obtain ⟨hregs, -⟩ := h
  exact hregs r hr

end Sys2Proof.Claims
end

section
/-! Whatever an instruction leaves unchanged: the whole footprint, VF, the keypad. -/

namespace Sys2Proof.Claims

open Sys2Proof.Machine

/-- Settles O44, from the frame of each operation. -/
theorem everyInstructionKeepsItsFootprint : Obligations.EveryInstructionKeepsItsFootprint :=
  fun _ _ _ h => exec_frame h

/-! ### VF -/

/-- An instruction without a flag changes the registers it names and no other (10_state.md R21, R22). -/
theorem footprint_regs_of_not_flagWriter {i : Instr} (h : flagWriter i = false) :
    (footprint i).regs = destinations i := by
  cases i with
  | addWithCarry | subWithBorrow | subWithBorrowReversed | shiftRight | shiftLeft | draw => cases h
  | _ => rfl

theorem flagByte_eq_zero_or_one (f : Bool) : flagByte f = 0 ∨ flagByte f = 1 := by cases f <;> simp [flagByte]

/-- The flag of an instruction with another destination remains in VF (42_alu.md R150). -/
theorem vf_setFlagThenReg {x : RegIdx} (s : State) (f : Bool) (b : Byte) (h : 15 ∉ [x]) :
    (s.setFlagThenReg f x b).reg 15 = 0 ∨ (s.setFlagThenReg f x b).reg 15 = 1 := by
  rw [State.reg_setFlagThenReg, if_neg (fun e => h (List.mem_singleton.2 e)), if_pos rfl]
  exact flagByte_eq_zero_or_one f

/-- A flag writer leaves 0 or 1 in VF unless VF is its destination (10_state.md R22). -/
theorem execute_vf_of_flagWriter {i : Instr} {s t : State} {d : Cursor} (h : execute i s = .next (t, d))
    (hf : flagWriter i = true) (hd : 15 ∉ destinations i) : t.reg 15 = 0 ∨ t.reg 15 = 1 := by
  cases i with
  | addWithCarry | subWithBorrow | subWithBorrowReversed | shiftRight | shiftLeft =>
    cases h; exact vf_setFlagThenReg s _ _ hd
  | draw =>
    cases (checkRange_eq_next h).2
    exact drawSprite_vf _ _ _ _ (by rw [State.reg_setFlag, if_pos rfl]; exact flagByte_eq_zero_or_one false)
  | _ => cases hf

/-- Settles O45: the footprint without a flag, and the six flag writers one by one. -/
theorem onlyFlagWritersTouchVF : Obligations.OnlyFlagWritersTouchVF := by
  intro i s t h hd
  refine ⟨fun hf => ?_, fun hf => ?_⟩
  · exact (exec_frame h).reg_eq (footprint_regs_of_not_flagWriter hf ▸ hd)
  · obtain ⟨u, d, he, rfl⟩ := exec_eq_next h
    rw [(frame_applyCursor (c := {}) u d).reg_eq List.not_mem_nil]
    exact execute_vf_of_flagWriter he hf hd

/-! ### The keypad -/

/-- A completed step is a completed instruction (40_sequencer.md R110). -/
theorem exec_of_step_eq_next {s t : State} (h : step s = .next t) : ∃ i, exec i s = .next t := by
  rcases step_cases s with ⟨-, e⟩ | ⟨-, _, _, _, _, -, e⟩ | ⟨-, i, -, e⟩
  · cases e.symm.trans h
  · cases e.symm.trans h
  · exact ⟨i, e.symm.trans h⟩

/-- Settles O48: the frame for instructions, and the moves one by one. -/
theorem onlyKeyOperationsWriteTheKeypad : Obligations.OnlyKeyOperationsWriteTheKeypad := by
  refine ⟨fun i s t h => (exec_frame h).key_eq, fun op s hreset hkeys => ?_⟩
  cases op with
  | reset => exact absurd rfl hreset
  | keyDown k => exact absurd rfl (hkeys k).1
  | keyUp k => exact absurd rfl (hkeys k).2
  | step =>
    rcases performStep_cases s with e | e
    · exact congrArg State.key e
    · obtain ⟨i, hi⟩ := exec_of_step_eq_next e
      exact (exec_frame hi).key_eq
  | load | tickTimers | snapshot => rfl

end Sys2Proof.Claims
end

section
/-! SUPPORT. What no instruction reads (spec/10_state.md R25, R28): the stack and the sound timer, but for the three
instructions that are about them. Executing at another stack and another ST is executing and then replacing both. -/

namespace Sys2Proof.Machine

open Sys2Proof.Claims

/-- The state with another stack and another sound timer. -/
def State.withStackSt (k : Vector Word 16) (b : Byte) (s : State) : State := { s with stack := k, st := b }

/-- An outcome with its next state replaced; a fault or a refusal stays. -/
def mapNext {σ τ : Type} (f : σ → τ) : Host.Outcome σ Fault Refusal → Host.Outcome τ Fault Refusal
  | .next a => .next (f a)
  | .fault e => .fault e
  | .refused r => .refused r

/-- An effect with another stack and another sound timer in its state, the directive kept. -/
def effectWithStackSt (k : Vector Word 16) (b : Byte) (e : Effect) : Effect :=
  mapNext (Prod.map (State.withStackSt k b) id) e

variable (k : Vector Word 16) (b : Byte) (s : State)

theorem finish_effectWithStackSt (e : Effect) :
    finish (effectWithStackSt k b e) = mapNext (State.withStackSt k b) (finish e) := by
  cases e with
  | next p => obtain ⟨t, d⟩ := p; cases d <;> rfl
  | fault f => rfl
  | refused r => rfl

theorem checkRange_withStackSt (n : Nat) (e : Effect) :
    checkRange (s.withStackSt k b) n (effectWithStackSt k b e) = effectWithStackSt k b (checkRange s n e) := by
  rcases checkRange_cases s n e with ⟨h0, hi, he⟩ | ⟨hf, he⟩
  · rw [he]; exact checkRange_of_exceeds _ n _ h0 hi
  · rw [he]; exact checkRange_of_fits _ n _ hf

theorem storeRegisters_withStackSt (x : RegIdx) :
    storeRegisters x (s.withStackSt k b) = (storeRegisters x s).withStackSt k b :=
  List.foldl_hom (State.withStackSt k b) (fun _ _ => rfl)

theorem loadRegisters_withStackSt (x : RegIdx) :
    loadRegisters x (s.withStackSt k b) = (loadRegisters x s).withStackSt k b :=
  List.foldl_hom (State.withStackSt k b) (fun _ _ => rfl)

theorem drawBit_withStackSt (a : Byte) (row : DispRow) (sprite : Byte) (c : Nat) :
    drawBit a row sprite (s.withStackSt k b) c = (drawBit a row sprite s c).withStackSt k b := by
  have hcell : (s.withStackSt k b).cell row (displayCol a c) = s.cell row (displayCol a c) := rfl
  unfold drawBit drawPixel
  rw [hcell]
  split_ifs <;> rfl

theorem drawSprite_withStackSt (a c : Byte) (n : Nat) :
    drawSprite a c n (s.withStackSt k b) = (drawSprite a c n s).withStackSt k b :=
  List.foldl_hom (State.withStackSt k b) (fun _ _ =>
    List.foldl_hom (State.withStackSt k b) (fun u c => drawBit_withStackSt k b u _ _ _ c))

/-- An instruction whose footprint holds neither the stack, nor SP, nor ST reads neither the stack nor ST. -/
theorem execute_withStackSt {i : Instr} (hstack : (footprint i).stack = false) (hsp : (footprint i).sp = false)
    (hst : (footprint i).st = false) :
    execute i (s.withStackSt k b) = effectWithStackSt k b (execute i s) := by
  cases i with
  | returnSubroutine => cases hsp
  | callSubroutine => cases hstack
  | writeSoundTimer => cases hst
  | draw x y n =>
    refine Eq.trans ?_ (checkRange_withStackSt k b s n _)
    exact congrArg (fun t => checkRange _ n (complete t .next)) (drawSprite_withStackSt k b (s.setFlag false) _ _ n)
  | storeRegisterBlock x =>
    refine Eq.trans ?_ (checkRange_withStackSt k b s (x.val + 1) _)
    exact congrArg (fun t => checkRange _ (x.val + 1) (complete t .next)) (storeRegisters_withStackSt k b s x)
  | loadRegisterBlock x =>
    refine Eq.trans ?_ (checkRange_withStackSt k b s (x.val + 1) _)
    exact congrArg (fun t => checkRange _ (x.val + 1) (complete t .next)) (loadRegisters_withStackSt k b s x)
  | storeBCD x => exact checkRange_withStackSt k b s 3 (complete (storeDigits (s.reg x) s) .next)
  | blockForKey x =>
    have hkey : (s.withStackSt k b).lowestKeyDown = s.lowestKeyDown := rfl
    simp only [execute, runBlockForKey, hkey]
    cases s.lowestKeyDown <;> rfl
  | _ => rfl

theorem exec_withStackSt {i : Instr} (hstack : (footprint i).stack = false) (hsp : (footprint i).sp = false)
    (hst : (footprint i).st = false) :
    exec i (s.withStackSt k b) = mapNext (State.withStackSt k b) (exec i s) := by
  rw [exec_eq_finish_execute, exec_eq_finish_execute, execute_withStackSt k b s hstack hsp hst,
    finish_effectWithStackSt]

end Sys2Proof.Machine
end

section
/-! Two steps side by side: noninterference of the stale stack entries and of the sound timer. -/

namespace Sys2Proof.Claims

open Sys2Proof.Machine

/-- Two outcomes of the same kind: the same fault or refusal, or next states that `R` relates. -/
def SameOutcome (R : State → State → Prop) :
    Host.Outcome State Fault Refusal → Host.Outcome State Fault Refusal → Prop
  | .next t, .next u => R t u
  | .fault f, .fault g => g = f
  | .refused r, .refused q => q = r
  | _, _ => False

variable {R : State → State → Prop}

/-- States with the same memory and `pc` fetch the same instruction; it remains to compare its executions. -/
theorem sameOutcome_step {s s' : State} (hmem : s'.mem = s.mem) (hpc : s'.pc = s.pc)
    (h : ∀ i, SameOutcome R (exec i s) (exec i s')) : SameOutcome R (step s) (step s') := by
  have hfetch : s'.fetch = s.fetch := by simp only [State.fetch, State.wordAtPc, State.memRead, hmem, hpc]
  unfold step
  rw [hfetch]
  cases s.fetch with
  | error f => rfl
  | ok w =>
    cases hd : decodeWord w with
    | instr i => simpa only [hd] using h i
    | invalid n0 n1 n2 n3 => simp only [hd]; rfl

/-- Where neither the stack nor ST is read, the outcomes are compared in the first state alone. -/
theorem sameOutcome_withStackSt {i : Instr} {s : State} {k : Vector Word 16} {b : Byte}
    (hstack : (footprint i).stack = false) (hsp : (footprint i).sp = false) (hst : (footprint i).st = false)
    (h : ∀ t, exec i s = .next t → R t (t.withStackSt k b)) :
    SameOutcome R (exec i s) (exec i (s.withStackSt k b)) := by
  rw [exec_withStackSt k b s hstack hsp hst]
  cases he : exec i s with
  | next t => exact h t he
  | fault f => rfl
  | refused r => rfl

/-- Whether a return completes depends on SP alone (41_control_flow.md R130). -/
theorem sameOutcome_return {s s' : State} (hsp : s'.sp = s.sp)
    (h : ∀ j : Fin 16, s.sp.toNat = j.val + 1 →
      R ((s.setSp (s.sp - 1)).setPc (s.stackEntry j)) ((s'.setSp (s.sp - 1)).setPc (s'.stackEntry j))) :
    SameOutcome R (exec .returnSubroutine s) (exec .returnSubroutine s') := by
  simp only [exec, execReturnSubroutine, runReturnSubroutine]
  rw [hsp]
  split_ifs with h0 h1
  · rfl
  · exact h ⟨_, h1⟩ (Nat.succ_pred h0).symm
  · rfl

/-- Whether a call completes depends on SP alone (R132). -/
theorem sameOutcome_call {s s' : State} (nnn : Addr12) (hsp : s'.sp = s.sp)
    (h : ∀ j : Fin 16, s.sp.toNat = j.val →
      R (((s.setStackEntry j (s.pc + 2)).setSp (s.sp + 1)).setPc (zextAddr nnn))
        (((s'.setStackEntry j (s'.pc + 2)).setSp (s.sp + 1)).setPc (zextAddr nnn))) :
    SameOutcome R (exec (.callSubroutine nnn) s) (exec (.callSubroutine nnn) s') := by
  simp only [exec, execCallSubroutine, runCallSubroutine]
  rw [hsp]
  split_ifs with h0 h1
  · rfl
  · exact h ⟨_, h1⟩ rfl
  · rfl

/-! ### Stale stack entries -/

/-- States that agree below SP differ in the stack alone. -/
theorem agreeBelowSp_iff {s s' : State} :
    AgreeBelowSp s s' ↔ ∃ k : Vector Word 16, s' = s.withStackSt k s.st ∧
      ∀ j : Fin 16, j.val < s.sp.toNat → k[j.val] = s.stackEntry j := by
  constructor
  · rintro ⟨hmem, hv, hi, hdt, hst, hpc, hsp, hkey, hdisp, hrand, hstack⟩
    refine ⟨s'.stack, ?_, hstack⟩
    rw [State.withStackSt, ← hmem, ← hv, ← hi, ← hdt, ← hst, ← hpc, ← hsp, ← hkey, ← hdisp, ← hrand]
  · rintro ⟨k, rfl, hk⟩
    exact ⟨rfl, rfl, rfl, rfl, rfl, rfl, rfl, rfl, rfl, rfl, hk⟩

/-- Executions of one instruction in states that agree below SP. The call writes the entry that becomes live, and
the return reads the topmost live one. -/
theorem sameOutcome_of_agreeBelowSp {s s' : State} (h : AgreeBelowSp s s') (i : Instr) :
    SameOutcome AgreeBelowSp (exec i s) (exec i s') := by
  obtain ⟨k, rfl, hk⟩ := agreeBelowSp_iff.1 h
  cases i with
  | returnSubroutine =>
    refine sameOutcome_return rfl fun j hj => agreeBelowSp_iff.2 ⟨k, ?_, fun l hl => hk l ?_⟩
    · rw [← hk j (by omega)]
      rfl
    · have hsp : (s.sp - 1).toNat = j.val := by bv_omega
      rw [State.setPc_sp, State.setSp_sp, hsp] at hl
      omega
  | callSubroutine nnn =>
    refine sameOutcome_call nnn rfl fun j hj => agreeBelowSp_iff.2 ⟨k.set j.val (s.pc + 2), rfl, fun l hl => ?_⟩
    have hsp : (s.sp + 1).toNat = j.val + 1 := by bv_omega
    rw [State.setPc_sp, State.setSp_sp, hsp] at hl
    rw [State.setPc_stackEntry, State.setSp_stackEntry, State.stackEntry_setStackEntry]
    by_cases hlj : l = j
    · simp [hlj]
    · rw [if_neg hlj, Vector.getElem_set_ne _ _ (fun e => hlj (Fin.ext e.symm))]
      exact hk l (by have := Fin.val_ne_of_ne hlj; omega)
  | writeSoundTimer x => exact agreeBelowSp_iff.2 ⟨k, rfl, hk⟩
  | _ =>
    refine sameOutcome_withStackSt rfl rfl rfl fun t ht => agreeBelowSp_iff.2 ⟨k, ?_, fun j hj => ?_⟩
    · rw [(exec_frame ht).st_eq rfl]
    · rw [(exec_frame ht).sp_eq rfl] at hj
      rw [State.stackEntry, (exec_frame ht).stack_eq rfl]
      exact hk j hj

/-- Settles O50, from the stack entries each instruction reads. -/
theorem staleStackEntriesAreNeverObserved : Obligations.StaleStackEntriesAreNeverObserved := by
  intro s s' h
  have hpc : s'.pc = s.pc := by obtain ⟨k, rfl, -⟩ := agreeBelowSp_iff.1 h; rfl
  have hmem : s'.mem = s.mem := by obtain ⟨k, rfl, -⟩ := agreeBelowSp_iff.1 h; rfl
  exact sameOutcome_step hmem hpc (sameOutcome_of_agreeBelowSp h)

/-! ### The sound timer -/

/-- Executions of one instruction in states that differ in ST. -/
theorem sameOutcome_setSt (s : State) (b : Byte) (i : Instr) :
    SameOutcome (fun t u => ∃ b', u = t.setSt b') (exec i s) (exec i (s.setSt b)) := by
  cases i with
  | returnSubroutine => exact sameOutcome_return rfl fun _ _ => ⟨b, rfl⟩
  | callSubroutine nnn => exact sameOutcome_call nnn rfl fun _ _ => ⟨b, rfl⟩
  | writeSoundTimer x => exact ⟨s.reg x, rfl⟩
  | _ =>
    refine sameOutcome_withStackSt (k := s.stack) rfl rfl rfl fun t ht => ⟨b, ?_⟩
    rw [← (exec_frame ht).stack_eq rfl]
    rfl

/-- Settles O49: only WriteSoundTimer has to do with ST, and it replaces it. -/
theorem soundTimerIsNeverRead : Obligations.SoundTimerIsNeverRead :=
  fun s b => sameOutcome_step rfl rfl (sameOutcome_setSt s b)

end Sys2Proof.Claims
end

section
/-! The data of memory (spec/10_state.md R30, R36): the canonical form is determined by what it reads as. And the
values of reset. -/

namespace Sys2Proof.Machine

/-! ### The canonical form -/

/-- In a list of rising addresses, what is listed for an address is what `lookup` finds. -/
theorem Memory.lookup_eq_some_iff {l : List Host.Cell} (h : l.Pairwise (fun c d => c.1 < d.1)) {a : Nat} {v : Byte} :
    Memory.lookup l a = some v ↔ (a, v) ∈ l := by
  induction l with
  | nil => simp [Memory.lookup]
  | cons c l ih =>
    obtain ⟨b, w⟩ := c
    obtain ⟨hb, hl⟩ := List.pairwise_cons.1 h
    by_cases hba : b = a
    · subst hba
      have hnot : (b, v) ∉ l := fun hm => lt_irrefl b (hb _ hm)
      simp [Memory.lookup, hnot, eq_comm]
    · simp [Memory.lookup, hba, Ne.symm hba, ih hl]

/-- Two lists of rising addresses with the same entries are the same list. -/
theorem Memory.cells_eq_of_mem_iff {l l' : List Host.Cell} (h : l.Pairwise (fun c d => c.1 < d.1))
    (h' : l'.Pairwise (fun c d => c.1 < d.1)) (hmem : ∀ c, c ∈ l ↔ c ∈ l') : l = l' := by
  have hnodup {m : List Host.Cell} (hm : m.Pairwise (fun c d => c.1 < d.1)) : m.Nodup :=
    List.Pairwise.imp (fun hlt (e : _ = _) => Nat.ne_of_lt hlt (congrArg Prod.fst e)) hm
  have hperm : l.Perm l' := (List.perm_ext_iff_of_nodup (hnodup h) (hnodup h')).2 hmem
  exact hperm.eq_of_pairwise (fun _ _ _ _ hlt hgt => absurd hlt (lt_asymm hgt)) h h'

/-- The canonical form lists exactly the bytes that differ from the reset contents. -/
theorem Memory.mem_cells_iff {m : Memory} (h : m.wf) {c : Host.Cell} :
    c ∈ m.cells ↔ c.1 < 4096 ∧ m.read c.1 = c.2 ∧ c.2 ≠ resetByte c.1 := by
  obtain ⟨hsorted, hcells⟩ := h
  have hlookup : Memory.lookup m.cells c.1 = some c.2 ↔ c ∈ m.cells := Memory.lookup_eq_some_iff hsorted
  constructor
  · intro hc
    obtain ⟨hlt, hne⟩ := hcells c hc
    exact ⟨hlt, by rw [Memory.read, hlookup.2 hc, Option.getD_some], hne⟩
  · rintro ⟨-, hread, hne⟩
    cases hl : Memory.lookup m.cells c.1 with
    | none => rw [Memory.read, hl, Option.getD_none] at hread; exact absurd hread.symm hne
    | some v => rw [Memory.read, hl, Option.getD_some] at hread; exact hlookup.1 (hread ▸ hl)

/-! ### Reset -/

theorem Memory.read_reset_glyph {a : Nat} (h : a < 0x50) : State.reset.mem.read a = Config.glyph a := by
  rw [Memory.read_reset, resetByte, if_pos h]

theorem Memory.read_reset_zero {a : Nat} (h : 0x50 ≤ a) : State.reset.mem.read a = 0 := by
  rw [Memory.read_reset, resetByte, if_neg (Nat.not_lt.2 h)]

theorem State.reg_reset (x : RegIdx) : State.reset.reg x = 0 := Vector.getElem_replicate x.isLt

theorem State.stackEntry_reset (j : Fin 16) : State.reset.stackEntry j = 0 := Vector.getElem_replicate j.isLt

theorem State.keyState_reset (k : KeyIdx) : State.reset.keyState k = false := Vector.getElem_replicate k.isLt

theorem State.cell_reset (row : DispRow) (col : DispCol) : State.reset.cell row col = false :=
  State.cell_clearDisplay State.reset row col

end Sys2Proof.Machine

namespace Sys2Proof.Claims

open Sys2Proof.Machine

/-- Settles O34: both memories list the bytes that differ from the reset contents, in the same order. -/
theorem canonicalMemoriesAreEqualData : Obligations.CanonicalMemoriesAreEqualData := by
  intro m m' h h' hread
  have hmem (c : Host.Cell) : c ∈ m.cells ↔ c ∈ m'.cells := by
    rw [Memory.mem_cells_iff h, Memory.mem_cells_iff h']
    exact and_congr_right fun hc => by rw [hread c.1 hc]
  obtain ⟨hsorted, -⟩ := h
  obtain ⟨hsorted', -⟩ := h'
  have hcells : m.cells = m'.cells := Memory.cells_eq_of_mem_iff hsorted hsorted' hmem
  exact congrArg Memory.mk hcells

/-- Settles O51, field by field. -/
theorem resetMeetsTheInvariant : Obligations.ResetMeetsTheInvariant where
  mem_wf := Memory.reset_wf
  sp_le := Nat.zero_le 16
  stack_le j := by rw [State.stackEntry_reset]; decide
  pc_le := by decide

/-- Settles O55, from the reset value of each accessor. -/
theorem resetValues : Obligations.ResetValues :=
  ⟨fun _ => rfl, rfl, fun _ => Memory.read_reset_glyph, fun _ h _ => Memory.read_reset_zero h, State.reg_reset, rfl,
    rfl, State.stackEntry_reset, rfl, rfl, State.keyState_reset, State.cell_reset⟩

end Sys2Proof.Claims
end

section
/-! The stores of the two storing instructions (spec/20_memory.md R55, R57), seen from outside: the bytes no store
reaches, and the bytes the next step fetches (R65). -/

namespace Sys2Proof.Machine

/-! ### The completed stores -/

/-- A StoreBCD completes only with its three bytes in memory (43_index_memory.md R183). -/
theorem exec_storeBCD_eq_next {x : RegIdx} {s t : State} (h : exec (.storeBCD x) s = .next t) :
    s.i.toNat + 2 ≤ 0xFFF ∧ t = (storeDigits (s.reg x) s).setPc (s.pc + 2) := by
  obtain ⟨u, d, he, rfl⟩ := exec_eq_next h
  obtain ⟨hfits, hu⟩ := checkRange_eq_next he
  cases hu
  exact ⟨hfits (Nat.succ_pos 2), rfl⟩

/-- A StoreRegisterBlock completes only with its whole block in memory (R184). -/
theorem exec_storeRegisterBlock_eq_next {x : RegIdx} {s t : State}
    (h : exec (.storeRegisterBlock x) s = .next t) :
    s.i.toNat + x.val ≤ 0xFFF ∧ t = (storeRegisters x s).setPc (s.pc + 2) := by
  obtain ⟨u, d, he, rfl⟩ := exec_eq_next h
  obtain ⟨hfits, hu⟩ := checkRange_eq_next he
  cases hu
  exact ⟨hfits (Nat.succ_pos x.val), by rw [State.applyCursor_next, storeRegisters_pc]⟩

/-- `MEM[I + k]` is `V[k]` after a completed StoreRegisterBlock (R184). -/
theorem exec_storeRegisterBlock_read {x k : RegIdx} {s t : State} (h : exec (.storeRegisterBlock x) s = .next t)
    (hk : k ≤ x) : t.mem.read (s.i.toNat + k.val) = s.reg k := by
  obtain ⟨hfits, rfl⟩ := exec_storeRegisterBlock_eq_next h
  have hkx : k.val ≤ x.val := hk
  exact storeRegisters_read x s k hk (by omega)

theorem storeDigits_read_outside {b : Byte} {s : State} {a : Nat} (hfits : s.i.toNat + 2 ≤ 0xFFF)
    (ha : a < s.i.toNat ∨ s.i.toNat + 3 ≤ a) : (storeDigits b s).mem.read a = s.mem.read a := by
  rw [storeDigits_read b s a (by omega), if_neg (by omega), if_neg (by omega), if_neg (by omega)]

/-! ### The next fetch -/

/-- Two bytes at `pc` that decode to an instruction are what the step runs, `pc` odd or even (40_sequencer.md
R110, R111). -/
theorem step_of_decodeBytes {s : State} {i : Instr} (hpc : s.pc.toNat ≤ 0xFFE)
    (h : decodeBytes [s.mem.read s.pc.toNat, s.mem.read (s.pc.toNat + 1)] = .ok (i, [])) : step s = exec i s := by
  have hw : decodeWord s.wordAtPc = .instr i := (decodeBytes_cons _ _ _ _).1 h
  rcases step_cases s with ⟨hhigh, -⟩ | ⟨-, _, _, _, _, hinvalid, -⟩ | ⟨-, j, hj, e⟩
  · omega
  · cases hinvalid.symm.trans hw
  · cases hj.symm.trans hw
    exact e

end Sys2Proof.Machine

namespace Sys2Proof.Claims

open Sys2Proof.Machine

theorem Frame.mem_read_eq {c : Changed} {s t : State} (h : Frame c s t) (hc : c.mem = false) (a : Nat) :
    t.mem.read a = s.mem.read a := by
  obtain ⟨-, hmem, -⟩ := h
  exact hmem hc a

/-- Settles O33: the block lies in memory, so `pc + 2` is no wrap and both bytes of the next fetch are registers of
the block. -/
theorem storeIsSeenByTheNextFetch : Obligations.StoreIsSeenByTheNextFetch := by
  intro x k k' s t i h hpc hsucc hk' hd
  have hlt : k'.val ≤ x.val := hk'
  have hk : k ≤ x := Fin.le_def.2 (by omega)
  have hhi := exec_storeRegisterBlock_read h hk
  have hlo := exec_storeRegisterBlock_read h hk'
  obtain ⟨hfits, rfl⟩ := exec_storeRegisterBlock_eq_next h
  have hnext : ((storeRegisters x s).setPc (s.pc + 2)).pc.toNat = s.i.toNat + k.val := by
    rw [State.setPc_pc]
    bv_omega
  refine step_of_decodeBytes (by omega) ?_
  rwa [hnext, hhi, show s.i.toNat + k.val + 1 = s.i.toNat + k'.val by omega, hlo]

/-- Settles O46: the two storing instructions by the addresses of their stores, every other by its frame. -/
theorem onlyStoredBytesChange : Obligations.OnlyStoredBytesChange := by
  intro i s t h a ha
  cases i with
  | storeBCD x =>
    obtain ⟨hfits, rfl⟩ := exec_storeBCD_eq_next h
    exact storeDigits_read_outside hfits ha
  | storeRegisterBlock x =>
    obtain ⟨-, rfl⟩ := exec_storeRegisterBlock_eq_next h
    refine storeRegisters_read_outside x s a fun k hk => ?_
    have hkx : k.val ≤ x.val := hk
    simp only [storedBytes] at ha
    omega
  | _ => exact (exec_frame h).mem_read_eq rfl a

end Sys2Proof.Claims
end

section
/-! SUPPORT. The numbers of an encoding in the spelling of the decoder's laws (spec/30_encoding.md R82, R83), the forms
on a word's own fields, and the three masks of the opcode map as conditions on the word's number. -/

namespace Sys2Proof

/-! ### The number of each form: the fixed bits first, then the operands -/

theorem formNnn_number (op : Nibble) (nnn : Addr12) : (formNnn op nnn).toNat = 0x1000 * op.toNat + nnn.toNat := by
  rw [formNnn_toNat, Nat.mul_comm]

theorem formXkk_number (op : Nibble) (x : RegIdx) (kk : Byte) :
    (formXkk op x kk).toNat = 0x1000 * op.toNat + 0x100 * x.val + kk.toNat := by
  rw [formXkk_toNat, Nat.mul_comm, Nat.mul_comm x.val]

theorem formXyn_number (op : Nibble) (x y : RegIdx) (n : Nibble) :
    (formXyn op x y n).toNat = 0x1000 * op.toNat + n.toNat + 0x100 * x.val + 0x10 * y.val := by
  rw [formXyn_toNat]
  omega

theorem formX_number (op : Nibble) (x : RegIdx) (fn : Byte) :
    (formX op x fn).toNat = 0x1000 * op.toNat + fn.toNat + 0x100 * x.val := by
  rw [formX_toNat]
  omega

/-! ### The masks as conditions on the number -/

theorem and_F000_eq_iff (w v : Word) :
    (w &&& 0xF000#16) = v ↔ v.toNat % 4096 = 0 ∧ w.toNat / 4096 = v.toNat / 4096 := by
  rw [← BitVec.toNat_inj, show (w &&& 0xF000#16).toNat = _ from and_F000_toNat w]
  omega

theorem and_F00F_eq_iff (w v : Word) : (w &&& 0xF00F#16) = v ↔
    v.toNat / 16 % 256 = 0 ∧ w.toNat / 4096 = v.toNat / 4096 ∧ w.toNat % 16 = v.toNat % 16 := by
  rw [← BitVec.toNat_inj, show (w &&& 0xF00F#16).toNat = _ from and_F00F_toNat w]
  omega

theorem and_F0FF_eq_iff (w v : Word) : (w &&& 0xF0FF#16) = v ↔
    v.toNat / 256 % 16 = 0 ∧ w.toNat / 4096 = v.toNat / 4096 ∧ w.toNat % 256 = v.toNat % 256 := by
  rw [← BitVec.toNat_inj, show (w &&& 0xF0FF#16).toNat = _ from and_F0FF_toNat w]
  omega

theorem and_FFFF_eq_iff (w v : Word) : (w &&& 0xFFFF#16) = v ↔ w.toNat = v.toNat := by
  rw [← BitVec.toNat_inj, show w &&& 0xFFFF#16 = w from and_FFFF w]

/-! ### A form on a word's own fields gives the word back exactly when the fixed bits agree -/

/-- The form of an instruction without operands. -/
theorem fixedWord_eq_iff (v w : Word) : v = w ↔ (w &&& 0xFFFF#16) = v := by
  rw [show w &&& 0xFFFF#16 = w from and_FFFF w, eq_comm]

theorem formNnn_fields_eq_iff (op : Nibble) (w : Word) :
    formNnn op (fieldNnn w) = w ↔ (w &&& 0xF000#16) = op ++ 0#12 := by
  rw [and_F000_eq_iff, ← BitVec.toNat_inj, append_toNat, formNnn_toNat, fieldNnn_toNat, BitVec.toNat_zero]
  omega

theorem formXkk_fields_eq_iff (op : Nibble) (w : Word) :
    formXkk op (fieldX w) (fieldKk w) = w ↔ (w &&& 0xF000#16) = op ++ 0#12 := by
  rw [and_F000_eq_iff, ← BitVec.toNat_inj, append_toNat, formXkk_toNat, fieldX_val, fieldKk_toNat, BitVec.toNat_zero]
  omega

theorem formXyn_fields_eq_iff (op n : Nibble) (w : Word) :
    formXyn op (fieldX w) (fieldY w) n = w ↔ (w &&& 0xF00F#16) = op ++ 0#8 ++ n := by
  have := n.isLt
  rw [and_F00F_eq_iff, ← BitVec.toNat_inj, append_toNat, append_toNat, formXyn_toNat, fieldX_val, fieldY_val,
    BitVec.toNat_zero]
  omega

/-- Draw carries its last nibble, so its row fixes the major opcode alone (30_encoding.md R86). -/
theorem and_F00F_eq_append_fieldN_iff (v : BitVec 12) (w : Word) :
    (w &&& 0xF00F#16) = v ++ BitVec.ofNat 4 (fieldN w) ↔ (w &&& 0xF000#16) = v ++ 0#4 := by
  rw [and_F00F_eq_iff, and_F000_eq_iff, append_toNat, append_toNat, BitVec.toNat_ofNat, fieldN_eq, BitVec.toNat_zero]
  omega

/-- With 0 for the dropped `y` the form gives the word back but for that nibble (30_encoding.md R91). -/
theorem formXyn_droppedY_eq_iff (op n : Nibble) (w : Word) :
    formXyn op (fieldX w) 0 n = (w &&& 0xFF0F#16) ↔ (w &&& 0xF00F#16) = op ++ 0#8 ++ n := by
  have := n.isLt
  rw [and_F00F_eq_iff, ← BitVec.toNat_inj, append_toNat, append_toNat, formXyn_toNat, fieldX_val, BitVec.toNat_zero,
    Fin.val_zero, show (w &&& 0xFF0F#16).toNat = _ from and_FF0F_toNat w]
  omega

theorem formX_fields_eq_iff (op : Nibble) (fn : Byte) (w : Word) :
    formX op (fieldX w) fn = w ↔ (w &&& 0xF0FF#16) = op ++ 0#4 ++ fn := by
  have := fn.isLt
  rw [and_F0FF_eq_iff, ← BitVec.toNat_inj, append_toNat, append_toNat, formX_toNat, fieldX_val, BitVec.toNat_zero]
  omega

/-- A word that is a shift's form but for its `y` nibble is that form with its own `y` (30_encoding.md R89). -/
theorem eq_formXyn_of_droppedY {op n : Nibble} {x : RegIdx} {w : Word} (h : formXyn op x 0 n = w &&& 0xFF0F) :
    w = formXyn op x (fieldY w) n := by
  have := n.isLt
  have hnum := congrArg BitVec.toNat h
  rw [formXyn_toNat, and_FF0F_toNat, Fin.val_zero] at hnum
  apply BitVec.eq_of_toNat_eq
  rw [formXyn_toNat, fieldY_val]
  omega

/-- The four nibbles of a word put together again (30_encoding.md R91). -/
theorem nibbles_append (w : Word) : nibble0 w ++ nibble1 w ++ nibble2 w ++ nibble3 w = w := by
  apply BitVec.eq_of_toNat_eq
  rw [append_toNat, append_toNat, append_toNat, nibble0_toNat, nibble1_toNat, nibble2_toNat, nibble3_toNat]
  omega

end Sys2Proof
end

section
/-! Encoding and decoding (spec/30_encoding.md R86 to R91). The decoder is characterised by the opcode map: a word that
a row covers decodes to the row's instruction, a word that no row covers is in one of the six sets of R87 and is
invalid. -/

namespace Sys2Proof.Claims

/-! ### Decoding an encoded instruction -/

theorem decodeWord_encode {i : Instr} (h : i.WellFormed) : decodeWord (encode i) = .instr i := by
  cases i with
  | clear => rfl
  | returnSubroutine => rfl
  | jumpTo nnn => exact decodeWord_jumpTo _ nnn (formNnn_number ..)
  | callSubroutine nnn => exact decodeWord_callSubroutine _ nnn (formNnn_number ..)
  | skipEqual x kk => exact decodeWord_skipEqual _ x kk (formXkk_number ..)
  | skipNotEqual x kk => exact decodeWord_skipNotEqual _ x kk (formXkk_number ..)
  | skipRegisterEqual x y => exact decodeWord_skipRegisterEqual _ x y (formXyn_number ..)
  | setRegister x kk => exact decodeWord_setRegister _ x kk (formXkk_number ..)
  | addRegister x kk => exact decodeWord_addRegister _ x kk (formXkk_number ..)
  | copyRegister x y => exact decodeWord_copyRegister _ x y (formXyn_number ..)
  | or x y => exact decodeWord_or _ x y (formXyn_number ..)
  | and x y => exact decodeWord_and _ x y (formXyn_number ..)
  | xor x y => exact decodeWord_xor _ x y (formXyn_number ..)
  | addWithCarry x y => exact decodeWord_addWithCarry _ x y (formXyn_number ..)
  | subWithBorrow x y => exact decodeWord_subWithBorrow _ x y (formXyn_number ..)
  | shiftRight x => exact decodeWord_shiftRight _ x 0 (formXyn_number ..)
  | subWithBorrowReversed x y => exact decodeWord_subWithBorrowReversed _ x y (formXyn_number ..)
  | shiftLeft x => exact decodeWord_shiftLeft _ x 0 (formXyn_number ..)
  | skipRegisterNotEqual x y => exact decodeWord_skipRegisterNotEqual _ x y (formXyn_number ..)
  | setAddressRegister nnn => exact decodeWord_setAddressRegister _ nnn (formNnn_number ..)
  | jumpWithOffset nnn => exact decodeWord_jumpWithOffset _ nnn (formNnn_number ..)
  | randomAnd x kk => exact decodeWord_randomAnd _ x kk (formXkk_number ..)
  | draw x y n =>
    have hn : n < 16 := of_decide_eq_true h
    refine decodeWord_draw _ x y n hn ((formXyn_toNat ..).trans ?_)
    rw [BitVec.toNat_ofNat, Nat.mod_eq_of_lt hn, Nat.mul_comm x.val, Nat.mul_comm y.val]
    rfl
  | skipIfKeyDown x => exact decodeWord_skipIfKeyDown _ x (formX_number ..)
  | skipIfKeyUp x => exact decodeWord_skipIfKeyUp _ x (formX_number ..)
  | readDelayTimer x => exact decodeWord_readDelayTimer _ x (formX_number ..)
  | blockForKey x => exact decodeWord_blockForKey _ x (formX_number ..)
  | writeDelayTimer x => exact decodeWord_writeDelayTimer _ x (formX_number ..)
  | writeSoundTimer x => exact decodeWord_writeSoundTimer _ x (formX_number ..)
  | addToAddressRegister x => exact decodeWord_addToAddressRegister _ x (formX_number ..)
  | setAddressToGlyph x => exact decodeWord_setAddressToGlyph _ x (formX_number ..)
  | storeBCD x => exact decodeWord_storeBCD _ x (formX_number ..)
  | storeRegisterBlock x => exact decodeWord_storeRegisterBlock _ x (formX_number ..)
  | loadRegisterBlock x => exact decodeWord_loadRegisterBlock _ x (formX_number ..)

/-- Settles O1: the two bytes are the encoded word again, and that word decodes to the instruction. -/
theorem decodeInvertsEncode : Obligations.DecodeInvertsEncode := by
  intro i rest h
  refine (decodeBytes_cons _ _ rest i).2 ?_
  rw [wordOfBytes_bytes]
  exact decodeWord_encode h

/-! ### A word that a row covers -/

/-- The bits of a word that an instruction decoded from it carries: all but the `y` nibble of the two shifts
(30_encoding.md R85, R89). -/
def carriedBits (i : Instr) (w : Word) : Word := if isShift i then w &&& 0xFF0F else w

/-- A word that an instruction encodes but for the bits it does not carry decodes to the instruction. -/
theorem decodeWord_of_encode_eq {i : Instr} {w : Word} (hwf : i.WellFormed) (h : encode i = carriedBits i w) :
    decodeWord w = .instr i := by
  cases i with
  | shiftRight x =>
    exact decodeWord_shiftRight w x (fieldY w)
      ((congrArg BitVec.toNat (eq_formXyn_of_droppedY h)).trans (formXyn_number ..))
  | shiftLeft x =>
    exact decodeWord_shiftLeft w x (fieldY w)
      ((congrArg BitVec.toNat (eq_formXyn_of_droppedY h)).trans (formXyn_number ..))
  | _ => exact (show encode _ = w from h) ▸ decodeWord_encode hwf

variable {w : Word}

/-- Each row, by the form of its instruction: the row's fixed bits are what the form and the word must agree on. -/
theorem encode_build_eq_iff : ∀ row ∈ opcodeTable, ∀ w : Word,
    encode (row.build w) = carriedBits (row.build w) w ↔ w &&& row.mask = row.value := by
  simp [opcodeTable, encode, carriedBits, isShift, fixedWord_eq_iff 0x00E0#16, fixedWord_eq_iff 0x00EE#16,
    formNnn_fields_eq_iff, formXkk_fields_eq_iff, formXyn_fields_eq_iff, and_F00F_eq_append_fieldN_iff,
    formXyn_droppedY_eq_iff, formX_fields_eq_iff]

theorem build_wellFormed : ∀ row ∈ opcodeTable, ∀ w : Word, (row.build w).WellFormed := by
  simp [opcodeTable, Instr.WellFormed, Instr.wellFormed, fieldN_eq, Nat.mod_lt]

theorem decodeWord_of_row {row : OpcodeRow} (hrow : row ∈ opcodeTable) (h : w &&& row.mask = row.value) :
    decodeWord w = .instr (row.build w) :=
  decodeWord_of_encode_eq (build_wellFormed row hrow w) ((encode_build_eq_iff row hrow w).2 h)

/-! ### A word that no row covers -/

/-- The six sets (a) to (f) of 30_encoding.md R87. -/
def InSixSets (w : Word) : Prop :=
  (w.toNat / 0x1000 = 0 ∧ w.toNat ≠ 0x00E0 ∧ w.toNat ≠ 0x00EE) ∨
  (w.toNat / 0x1000 = 5 ∧ w.toNat % 16 ≠ 0) ∨
  (w.toNat / 0x1000 = 8 ∧ w.toNat % 16 ∈ [8, 9, 0xA, 0xB, 0xC, 0xD, 0xF]) ∨
  (w.toNat / 0x1000 = 9 ∧ w.toNat % 16 ≠ 0) ∨
  (w.toNat / 0x1000 = 0xE ∧ w.toNat % 256 ≠ 0x9E ∧ w.toNat % 256 ≠ 0xA1) ∨
  (w.toNat / 0x1000 = 0xF ∧ w.toNat % 256 ∉ [0x07, 0x0A, 0x15, 0x18, 0x1E, 0x29, 0x33, 0x55, 0x65])

/-- By the major opcode: with it fixed, both sides are about the last nibble or the last byte. -/
theorem noRow_iff_inSixSets : (∀ row ∈ opcodeTable, w &&& row.mask ≠ row.value) ↔ InSixSets w := by
  have hlt : w.toNat / 4096 < 16 := by omega
  simp only [opcodeTable, InSixSets, List.cons_append, List.nil_append, List.forall_mem_cons, BitVec.ofNat_eq_ofNat,
    and_F000_eq_iff, and_F00F_eq_iff, and_F0FF_eq_iff, and_FFFF_eq_iff, ne_eq]
  generalize hn : w.toNat / 4096 = n at *
  interval_cases n <;> simp <;> omega

/-- Set by set along the decision tree of 30_encoding.md R92: each set excludes what its family decodes. -/
theorem decodeWord_of_inSixSets (h : InSixSets w) : decodeWord w = invalidOf w := by
  rcases h with ⟨hn, hE0, hEE⟩ | ⟨hn, hlast⟩ | ⟨hn, hlast⟩ | ⟨hn, hlast⟩ | ⟨hn, h9E, hA1⟩ | ⟨hn, hfn⟩
  · simp [decodeWord, nibble0_of hn, decode0, ← BitVec.toNat_inj, hE0, hEE]
  · simp [decodeWord, nibble0_of hn, decodeXY0, ← BitVec.toNat_inj, nibble3_toNat, hlast]
  · have h8 : decodeWord w = decode8 w := by simp [decodeWord, nibble0_of hn]
    rw [h8, decode8]
    split <;> simp_all [fieldN_eq]
  · simp [decodeWord, nibble0_of hn, decodeXY0, ← BitVec.toNat_inj, nibble3_toNat, hlast]
  · have hE : decodeWord w = decodeE w := by simp [decodeWord, nibble0_of hn]
    rw [hE, decodeE]
    split <;> simp_all [fieldKk_toNat]
  · have hF : decodeWord w = decodeF w := by simp [decodeWord, nibble0_of hn]
    rw [hF, decodeF]
    split <;> simp_all [fieldKk_toNat]

theorem decodeWord_of_noRow (h : ∀ row ∈ opcodeTable, w &&& row.mask ≠ row.value) : decodeWord w = invalidOf w :=
  decodeWord_of_inSixSets (noRow_iff_inSixSets.1 h)

/-- Every word is covered by a row or by none, and decodes accordingly (30_encoding.md R84, R86). -/
theorem decodeWord_cases (w : Word) :
    (∃ row ∈ opcodeTable, w &&& row.mask = row.value ∧ decodeWord w = .instr (row.build w)) ∨
    ((∀ row ∈ opcodeTable, w &&& row.mask ≠ row.value) ∧ decodeWord w = invalidOf w) := by
  by_cases h : ∃ row ∈ opcodeTable, w &&& row.mask = row.value
  · obtain ⟨row, hrow, hw⟩ := h
    exact .inl ⟨row, hrow, hw, decodeWord_of_row hrow hw⟩
  · push Not at h
    exact .inr ⟨h, decodeWord_of_noRow h⟩

/-! ### The statements -/

/-- Settles O2: a covered word by its row, any other by its nibbles. -/
theorem encodeInvertsDecode : Obligations.EncodeInvertsDecode := by
  intro w
  rcases decodeWord_cases w with ⟨row, hrow, hw, hd⟩ | ⟨-, hd⟩
  · rw [hd]
    exact ⟨build_wellFormed row hrow w, (encode_build_eq_iff row hrow w).2 hw⟩
  · rw [hd]
    exact nibbles_append w

theorem encode_of_decodeWord {i : Instr} (h : decodeWord w = .instr i) : encode i = carriedBits i w := by
  have hinv := encodeInvertsDecode w
  rw [h] at hinv
  obtain ⟨-, hencode⟩ := hinv
  exact hencode

/-- Settles O3: the row covers the word exactly when its instruction encodes to the bits of the word it carries. -/
theorem opcodeMapDecidesDecoding : Obligations.OpcodeMapDecidesDecoding :=
  ⟨opcodeTable_length,
    fun row hrow w => ⟨fun h => (encode_build_eq_iff row hrow w).1 (encode_of_decodeWord h), decodeWord_of_row hrow⟩,
    fun _ => decodeWord_of_noRow⟩

theorem forall_decodeWord_ne_instr_iff :
    (∀ i, decodeWord w ≠ .instr i) ↔ ∀ row ∈ opcodeTable, w &&& row.mask ≠ row.value := by
  rcases decodeWord_cases w with ⟨row, hrow, hw, hd⟩ | ⟨hno, hd⟩
  · exact ⟨fun h => absurd hd (h _), fun h => absurd hw (h row hrow)⟩
  · exact ⟨fun _ => hno, fun _ i h => nomatch hd.symm.trans h⟩

/-- Settles O4: a word decodes to no instruction exactly when no row covers it. -/
theorem invalidWordsAreTheSixSets : Obligations.InvalidWordsAreTheSixSets :=
  fun _ => forall_decodeWord_ne_instr_iff.trans noRow_iff_inSixSets

/-- Settles O5, by running the decoder on each of the ten words. -/
theorem writtenOutWordsDecode : Obligations.WrittenOutWordsDecode := by
  unfold Obligations.WrittenOutWordsDecode Decodes
  decide

end Sys2Proof.Claims
end

section
/-! SUPPORT. The sequencer (spec/40_sequencer.md R110 to R118): what a completed step is, which directives an instruction
returns, where a jump can lead, and when a step is refused. -/

namespace Sys2Proof.Machine

open Sys2Proof.Claims

/-! ### A completed step -/

/-- A step effect that completes has fetched and decoded an instruction whose effect it is (40_sequencer.md R110). -/
theorem stepEffect_eq_next {s : State} {p : State × Cursor} (h : stepEffect s = .next p) :
    s.pc.toNat ≤ 0xFFE ∧ ∃ i, decodeWord s.wordAtPc = .instr i ∧ execute i s = .next p := by
  unfold stepEffect at h
  by_cases hpc : s.pc.toNat ≤ 0xFFE
  · rw [State.fetch_ok s hpc] at h
    cases hd : decodeWord s.wordAtPc with
    | instr i => exact ⟨hpc, i, rfl, by simpa only [hd] using h⟩
    | invalid n0 n1 n2 n3 => simp [hd, raise] at h
  · rw [State.fetch_error s (Nat.lt_of_not_le hpc)] at h
    cases h

/-- A completed step is a completed effect with its directive applied (R110, R114). -/
theorem stepEffect_of_step_eq_next {s t : State} (h : step s = .next t) :
    ∃ u c, stepEffect s = .next (u, c) ∧ t = u.applyCursor c :=
  finish_eq_next ((step_eq_finish_stepEffect s).symm.trans h)

/-! ### Directives -/

theorem skipIf_eq_skip_or_next (b : Bool) : skipIf b = .skip ∨ skipIf b = .next := by cases b <;> simp [skipIf]

/-- A completed instruction returns a directive of its row (R115). -/
theorem execute_mayReturn {i : Instr} {s t : State} {c : Cursor} (h : execute i s = .next (t, c)) :
    MayReturn i c := by
  cases i with
  | returnSubroutine =>
    rcases runReturnSubroutine_cases s with ⟨-, e⟩ | ⟨j, -, e⟩ | ⟨-, e⟩ <;> cases e.symm.trans h
    exact ⟨_, rfl⟩
  | callSubroutine nnn =>
    rcases runCallSubroutine_cases nnn s with ⟨-, e⟩ | ⟨j, -, e⟩ | ⟨-, e⟩ <;> cases e.symm.trans h
    exact ⟨_, rfl⟩
  | jumpTo | jumpWithOffset => cases h; exact ⟨_, rfl⟩
  | skipEqual | skipNotEqual | skipRegisterEqual | skipRegisterNotEqual | skipIfKeyDown | skipIfKeyUp =>
    cases h; exact skipIf_eq_skip_or_next _
  | blockForKey x =>
    rcases runBlockForKey_cases x s with ⟨-, e⟩ | ⟨k, -, e⟩ <;> cases e.symm.trans h
    · exact .inl rfl
    · exact .inr rfl
  | draw | storeBCD | storeRegisterBlock | loadRegisterBlock => cases (checkRange_eq_next h).2; rfl
  | _ => cases h; rfl

/-- Where a jump leads when every return address is at most 0x1000 (R117): a return to such an address, the others to
`nnn` or to `V[0] + nnn`. -/
theorem execute_jump_le {i : Instr} {s t : State} {target : Word} (hstack : ∀ j, (s.stackEntry j).toNat ≤ 0x1000)
    (h : execute i s = .next (t, .jump target)) : target.toNat ≤ 0x10FE := by
  cases i with
  | returnSubroutine =>
    rcases runReturnSubroutine_cases s with ⟨-, e⟩ | ⟨j, -, e⟩ | ⟨-, e⟩ <;> cases e.symm.trans h
    exact (hstack j).trans (by decide)
  | callSubroutine nnn =>
    rcases runCallSubroutine_cases nnn s with ⟨-, e⟩ | ⟨j, -, e⟩ | ⟨-, e⟩ <;> cases e.symm.trans h
    rw [zextAddr_toNat]
    omega
  | jumpTo nnn =>
    cases h
    rw [zextAddr_toNat]
    omega
  | jumpWithOffset nnn =>
    cases h
    rw [BitVec.toNat_add, zextByte_toNat, zextAddr_toNat]
    omega
  | _ => simpa [MayReturn] using execute_mayReturn h

/-! ### Refusals -/

/-- Only a stack pointer above 16 is refused (assumption log 4). -/
theorem execute_eq_refused {i : Instr} {s : State} {r : Refusal} (h : execute i s = .refused r) :
    16 < s.sp.toNat := by
  cases i with
  | returnSubroutine =>
    rcases runReturnSubroutine_cases s with ⟨-, e⟩ | ⟨j, -, e⟩ | ⟨hsp, -⟩
    · cases e.symm.trans h
    · cases e.symm.trans h
    · exact hsp
  | callSubroutine nnn =>
    rcases runCallSubroutine_cases nnn s with ⟨-, e⟩ | ⟨j, -, e⟩ | ⟨hsp, -⟩
    · cases e.symm.trans h
    · cases e.symm.trans h
    · exact hsp
  | blockForKey x =>
    rcases runBlockForKey_cases x s with ⟨-, e⟩ | ⟨k, -, e⟩ <;> cases e.symm.trans h
  | draw | storeBCD | storeRegisterBlock | loadRegisterBlock =>
    rcases checkRange_cases s _ _ with ⟨-, -, e⟩ | ⟨-, e⟩ <;> cases e.symm.trans h
  | _ => cases h

/-- A refused step is a refused instruction: the fetch and the decoder only fault (R110, R239). -/
theorem exec_of_step_eq_refused {s : State} {r : Refusal} (h : step s = .refused r) :
    ∃ i, exec i s = .refused r := by
  rcases step_cases s with ⟨-, e⟩ | ⟨-, _, _, _, _, -, e⟩ | ⟨-, i, -, e⟩
  · cases e.symm.trans h
  · cases e.symm.trans h
  · exact ⟨i, e.symm.trans h⟩

/-! ### A step as a move -/

theorem performStep_of_stepEffect_eq_next {s u : State} {c : Cursor} (h : stepEffect s = .next (u, c)) :
    performStep s = (u.applyCursor c, .cursor c) := by
  rw [performStep, h]

theorem performStep_of_fault {s : State} {f : Fault} (h : step s = .fault f) : performStep s = (s, .fault f) := by
  have he : stepEffect s = .fault f := finish_eq_fault.1 ((step_eq_finish_stepEffect s).symm.trans h)
  rw [performStep, he]

theorem performStep_of_refused {s : State} {r : Refusal} (h : step s = .refused r) :
    performStep s = (s, .refused r) := by
  have he : stepEffect s = .refused r := finish_eq_refused.1 ((step_eq_finish_stepEffect s).symm.trans h)
  rw [performStep, he]

/-! ### The model's own placing of a word (assumption log 18) -/

/-- Two bytes written at `pc` and `pc + 1` are the word fetched there (R111). -/
theorem State.wordAtPc_of_written (s : State) (w : Word) (h : s.pc.toNat ≤ 0xFFE) :
    ((s.memWrite s.pc.toNat (highByte w)).memWrite (s.pc.toNat + 1) (lowByte w)).wordAtPc = w := by
  have hhi : s.pc.toNat < 4096 := by omega
  have hlo : s.pc.toNat + 1 < 4096 := by omega
  simp [State.wordAtPc, State.memRead_memWrite, hhi, hlo]

/-- `withFetchWord` writes the word at a `pc` from which a fetch is possible. -/
theorem State.withFetchWord_eq (s : State) (w : Word) :
    ∃ t : State, t.pc.toNat ≤ 0xFFE ∧ s.withFetchWord 16 w.toNat =
      (t.memWrite t.pc.toNat (highByte w)).memWrite (t.pc.toNat + 1) (lowByte w) := by
  have hw : BitVec.ofNat 16 (w.toNat % 2 ^ 16) = w := by
    rw [Nat.mod_eq_of_lt w.isLt, BitVec.ofNat_toNat, BitVec.setWidth_eq]
  by_cases h : Config.lastAddress < s.pc.toNat + 1
  · exact ⟨s.setPc 0x200, by simp, by simp only [State.withFetchWord, if_pos h, hw]; rfl⟩
  · refine ⟨s, ?_, by simp only [State.withFetchWord, if_neg h, hw]⟩
    simp only [Config.lastAddress] at h
    omega

end Sys2Proof.Machine
end

section
/-! SUPPORT. What keeps the invariant (spec/40_sequencer.md R117, 10_state.md R26): each part through an instruction, then
the directive, then every move of the host. -/

namespace Sys2Proof.Machine

open Sys2Proof.Claims

variable {i : Instr} {s t : State} {c : Cursor}

/-! ### An instruction and its directive -/

/-- A call completes only below 16 entries, and no other instruction pushes one (R26). -/
theorem execute_sp_le (hsp : s.sp.toNat ≤ 16) (h : execute i s = .next (t, c)) : t.sp.toNat ≤ 16 := by
  cases i with
  | returnSubroutine =>
    rcases runReturnSubroutine_cases s with ⟨-, e⟩ | ⟨j, hj, e⟩ | ⟨-, e⟩ <;> cases e.symm.trans h
    rw [State.setSp_sp]
    bv_omega
  | callSubroutine nnn =>
    rcases runCallSubroutine_cases nnn s with ⟨-, e⟩ | ⟨j, hj, e⟩ | ⟨-, e⟩ <;> cases e.symm.trans h
    rw [State.setSp_sp]
    bv_omega
  | _ => rwa [(execute_frame h).sp_eq rfl]

/-- A call from a fetched address pushes at most 0x1000, and no other instruction writes the stack (R117). -/
theorem execute_stack_le (hpc : s.pc.toNat ≤ 0xFFE) (hstack : ∀ j, (s.stackEntry j).toNat ≤ 0x1000)
    (h : execute i s = .next (t, c)) (j : Fin 16) : (t.stackEntry j).toNat ≤ 0x1000 := by
  cases i with
  | callSubroutine nnn =>
    rcases runCallSubroutine_cases nnn s with ⟨-, e⟩ | ⟨k, -, e⟩ | ⟨-, e⟩ <;> cases e.symm.trans h
    rw [State.setSp_stackEntry, State.stackEntry_setStackEntry]
    split
    · bv_omega
    · exact hstack j
  | _ =>
    rw [State.stackEntry, (execute_frame h).stack_eq rfl]
    exact hstack j

theorem State.Inv.of_execute (hs : s.Inv) (hpc : s.pc.toNat ≤ 0xFFE) (h : execute i s = .next (t, c)) : t.Inv where
  mem_wf := execute_mem_wf hs.mem_wf h
  sp_le := execute_sp_le hs.sp_le h
  stack_le := execute_stack_le hpc hs.stack_le h
  pc_le := by rw [execute_pc h]; exact hs.pc_le

/-- The invariant where neither SP nor the stack has changed. -/
theorem State.Inv.of_same_stack (hs : s.Inv) (hmem : t.mem.wf) (hsp : t.sp = s.sp) (hstack : t.stack = s.stack)
    (hpc : t.pc.toNat ≤ 0x10FE) : t.Inv where
  mem_wf := hmem
  sp_le := hsp ▸ hs.sp_le
  stack_le j := by rw [State.stackEntry, hstack]; exact hs.stack_le j
  pc_le := hpc

theorem State.Inv.setPc (hs : s.Inv) {a : Word} (ha : a.toNat ≤ 0x10FE) : (s.setPc a).Inv :=
  hs.of_same_stack hs.mem_wf rfl rfl ha

/-- From a fetched address Next and Skip lead at most to 0x1002 (R117). -/
theorem State.Inv.applyCursor (hs : s.Inv) (hpc : s.pc.toNat ≤ 0xFFE)
    (hjump : ∀ target, c = .jump target → target.toNat ≤ 0x10FE) : (s.applyCursor c).Inv := by
  cases c with
  | stay => exact hs
  | next => exact hs.setPc (by bv_omega)
  | skip => exact hs.setPc (by bv_omega)
  | jump target => exact hs.setPc (hjump target rfl)

/-- An instruction runs only where its word was fetched, so its directive starts at most at 0xFFE. -/
theorem State.Inv.of_step (hs : s.Inv) (h : step s = .next t) : t.Inv := by
  obtain ⟨u, c, hu, rfl⟩ := stepEffect_of_step_eq_next h
  obtain ⟨hpc, i, -, he⟩ := stepEffect_eq_next hu
  refine (hs.of_execute hpc he).applyCursor (execute_pc he ▸ hpc) ?_
  rintro target rfl
  exact execute_jump_le hs.stack_le he

/-! ### The moves of the host -/

theorem State.Inv.loadProgram (hs : s.Inv) (program : List Byte) : (s.loadProgram program).Inv :=
  hs.of_same_stack (Memory.load_wf program hs.mem_wf) rfl rfl hs.pc_le

theorem State.Inv.setKey (hs : s.Inv) (k : KeyIdx) (down : Bool) : (s.setKey k down).Inv :=
  hs.of_same_stack hs.mem_wf rfl rfl hs.pc_le

theorem State.Inv.tickTimers (hs : s.Inv) : s.tickTimers.Inv := hs.of_same_stack hs.mem_wf rfl rfl hs.pc_le

theorem State.Inv.performKey (hs : s.Inv) (k : Nat) (down : Bool) : (performKey s k down).1.Inv := by
  rcases performKey_cases s k down with ⟨-, e⟩ | ⟨j, -, e⟩
  · rw [e]; exact hs
  · rw [e]; exact hs.setKey j down

theorem State.Inv.performStep (hs : s.Inv) : (performStep s).1.Inv := by
  rcases performStep_cases s with e | e
  · rw [e]; exact hs
  · exact hs.of_step e

theorem State.Inv.perform (hs : s.Inv) (op : BoundaryOp) : (perform op s).1.Inv := by
  cases op with
  | reset => exact resetMeetsTheInvariant
  | load program => exact hs.loadProgram program
  | step => exact hs.performStep
  | keyDown k => exact hs.performKey k true
  | keyUp k => exact hs.performKey k false
  | tickTimers => exact hs.tickTimers
  | snapshot => exact hs

theorem State.Inv.of_reachable (h : Reachable s) : s.Inv := by
  obtain ⟨ops, rfl⟩ := h
  exact performAll_keeps State.Inv (fun op _ ht => ht.perform op) ops State.reset resetMeetsTheInvariant

end Sys2Proof.Machine
end

section
/-! The statements about the step and its invariant (spec/40_sequencer.md R110 to R118). -/

namespace Sys2Proof.Claims

open Sys2Proof.Machine

/-- Settles O52, from the fetch that every completed step has made. -/
theorem stepKeepsTheInvariant : Obligations.StepKeepsTheInvariant := fun _ _ hs h => hs.of_step h

/-- Settles O8: the placed word is the one fetched, and an encoded instruction decodes to itself. -/
theorem placedWordIsTheInstructionRun : Obligations.PlacedWordIsTheInstructionRun := by
  intro s i hi
  obtain ⟨t, hpc, ht⟩ := State.withFetchWord_eq s (encode i)
  rw [ht]
  refine step_of_decodeBytes hpc ((decodeBytes_cons _ _ _ _).2 ?_)
  exact (congrArg decodeWord (State.wordAtPc_of_written t (encode i) hpc)).trans (decodeWord_encode hi)

/-- Settles O9: the directive is the one the step effect returned with `pc` untouched; a fault leaves the state, from
which the same step faults again. -/
theorem stepResultIsPrecise : Obligations.StepResultIsPrecise := by
  intro s
  refine ⟨fun t h => ?_, fun f h => ?_, fun r h => performStep_of_refused h⟩
  · obtain ⟨u, c, hu, rfl⟩ := stepEffect_of_step_eq_next h
    obtain ⟨-, i, -, he⟩ := stepEffect_eq_next hu
    refine ⟨c, performStep_of_stepEffect_eq_next hu, ?_⟩
    rw [← execute_pc he]
    cases c <;> rfl
  · have hf : perform .step s = (s, .fault f) := performStep_of_fault h
    exact ⟨hf, by rw [hf]; exact hf⟩

/-- Settles O10, from the row of each instruction. -/
theorem directivesFollowTheTable : Obligations.DirectivesFollowTheTable :=
  fun i s _ _ h => ⟨execute_mayReturn h, execute_pc h, by rw [exec_eq_finish_execute, h]; rfl⟩

/-- Settles O53: the states of a run are reachable, and every move keeps the invariant that reset meets. -/
theorem reachableStatesMeetTheInvariant : Obligations.ReachableStatesMeetTheInvariant :=
  ⟨resetMeetsTheInvariant.loadProgram, fun _ _ h => .of_reachable (reachable_of_runState h), fun _ => .of_reachable⟩

/-- Settles O54: a refusal needs a stack pointer above 16. -/
theorem noStepIsRefusedUnderTheInvariant : Obligations.NoStepIsRefusedUnderTheInvariant := by
  intro s r hs h
  obtain ⟨i, he⟩ := exec_of_step_eq_refused h
  rw [exec_eq_finish_execute, finish_eq_refused] at he
  exact absurd hs.sp_le (Nat.not_le_of_lt (execute_eq_refused he))

/-- Settles O6, from the cases of a step. -/
theorem stepRunsTheDecodedInstruction : Obligations.StepRunsTheDecodedInstruction :=
  fun _ _ => step_of_decodeBytes

/-- Settles O18: the target is the `pc` the step started from. -/
theorem selfJumpChangesNothing : Obligations.SelfJumpChangesNothing := by
  intro s nnn hpc hle h
  have htarget : zextAddr nnn = s.pc := BitVec.eq_of_toNat_eq ((zextAddr_toNat nnn).trans hpc.symm)
  rw [← hpc] at hle h
  calc step s = exec (.jumpTo nnn) s := step_of_decodeBytes hle h
    _ = .next (s.setPc (zextAddr nnn)) := rfl
    _ = .next s := by rw [htarget]; rfl

end Sys2Proof.Claims
end

section
/-! SUPPORT. What the statements about single instructions say in common: which numbers decode (spec/30_encoding.md R87,
R91), where a directive leads (40_sequencer.md R114), and that no step runs with `pc` out of range. -/

namespace Sys2Proof.Machine

/-- The fetch is the first thing a step does (spec/40_sequencer.md R111). -/
theorem step_of_pc_out_of_range {s : State} (h : 0xFFE < s.pc.toNat) : step s = .fault (.fetchOutOfRange s.pc) := by
  rcases step_cases s with ⟨-, e⟩ | ⟨hle, -⟩ | ⟨hle, -⟩
  · exact e
  · omega
  · omega

end Sys2Proof.Machine

namespace Sys2Proof.Claims

open Sys2Proof.Machine

/-! ### Directives as changes of `pc` (40_sequencer.md R114) -/

theorem nextPc_applyCursor (s : State) : NextPc s (s.applyCursor .next) := BitVec.toNat_add s.pc 2

theorem skipPc_applyCursor (s : State) : SkipPc s (s.applyCursor .skip) := BitVec.toNat_add s.pc 4

/-- An instruction that is nothing but a conditional directive skips exactly on its condition. -/
theorem skipsExactlyWhen_of_skipIf {i : Instr} {s : State} {b : Bool} {condition : Prop}
    (h : exec i s = .next (s.applyCursor (skipIf b))) (hb : b = true ↔ condition) :
    SkipsExactlyWhen i s condition := by
  refine ⟨_, h, fun hc => ?_, fun hc => ?_, frame_applyCursor s _⟩
  · rw [hb.2 hc]
    exact skipPc_applyCursor s
  · rw [Bool.eq_false_of_not_eq_true (mt hb.1 hc)]
    exact nextPc_applyCursor s

/-! ### Which numbers decode -/

/-- The number of an instruction's encoding decodes to it (30_encoding.md R91). -/
theorem decodes_of_encode {i : Instr} {n : Nat} (hi : i.WellFormed) (h : (encode i).toNat = n) : Decodes n i := by
  subst h
  rw [Decodes, BitVec.ofNat_toNat, BitVec.setWidth_eq]
  exact decodeWord_encode hi

/-- In the families 5 and 9 the last nibble is 0 (30_encoding.md R87). -/
theorem not_decodes_of_lastNibble {n : Nat} (hfamily : n / 0x1000 = 5 ∨ n / 0x1000 = 9) (hlast : n % 16 ≠ 0)
    (i : Instr) : ¬Decodes n i := by
  have hn : (BitVec.ofNat 16 n).toNat = n := by rw [BitVec.toNat_ofNat]; omega
  refine (invalidWordsAreTheSixSets (BitVec.ofNat 16 n)).2 ?_ i
  rw [hn]
  rcases hfamily with h | h
  · exact .inr (.inl ⟨h, hlast⟩)
  · exact .inr (.inr (.inr (.inl ⟨h, hlast⟩)))

end Sys2Proof.Claims
end

section
/-! SUPPORT. The return and the call as what `exec` does for each SP, and the return after a call
(spec/41_control_flow.md R130, R132). -/

namespace Sys2Proof.Machine

variable {s t : State} {j : Fin 16} (nnn : Addr12)

/-! ### The return (R130) -/

theorem exec_returnSubroutine_of_empty (h : s.sp.toNat = 0) : exec .returnSubroutine s = .fault .stackUnderflow := by
  rcases runReturnSubroutine_cases s with ⟨-, e⟩ | ⟨k, hk, -⟩ | ⟨h16, -⟩
  · exact congrArg finish e
  · omega
  · omega

theorem exec_returnSubroutine_of_live (h : s.sp.toNat = j.val + 1) :
    exec .returnSubroutine s = .next ((s.setSp (s.sp - 1)).setPc (s.stackEntry j)) := by
  rcases runReturnSubroutine_cases s with ⟨h0, -⟩ | ⟨k, hk, e⟩ | ⟨h16, -⟩
  · omega
  · obtain rfl : k = j := Fin.ext (by omega)
    exact congrArg finish e
  · omega

theorem exec_returnSubroutine_of_unreachable (h : 16 < s.sp.toNat) :
    exec .returnSubroutine s = .refused (.stackPointerOutOfRange s.sp) := by
  rcases runReturnSubroutine_cases s with ⟨h0, -⟩ | ⟨k, hk, -⟩ | ⟨-, e⟩
  · omega
  · omega
  · exact congrArg finish e

/-! ### The call (R132) -/

theorem exec_callSubroutine_of_full (h : s.sp.toNat = 16) : exec (.callSubroutine nnn) s = .fault .stackOverflow := by
  rcases runCallSubroutine_cases nnn s with ⟨-, e⟩ | ⟨k, hk, -⟩ | ⟨h16, -⟩
  · exact congrArg finish e
  · omega
  · omega

theorem exec_callSubroutine_of_room (h : s.sp.toNat = j.val) : exec (.callSubroutine nnn) s =
    .next (((s.setStackEntry j (s.pc + 2)).setSp (s.sp + 1)).setPc (zextAddr nnn)) := by
  rcases runCallSubroutine_cases nnn s with ⟨h16, -⟩ | ⟨k, hk, e⟩ | ⟨h16, -⟩
  · omega
  · obtain rfl : k = j := Fin.ext (hk.symm.trans h)
    exact congrArg finish e
  · omega

theorem exec_callSubroutine_of_unreachable (h : 16 < s.sp.toNat) :
    exec (.callSubroutine nnn) s = .refused (.stackPointerOutOfRange s.sp) := by
  rcases runCallSubroutine_cases nnn s with ⟨h16, -⟩ | ⟨k, hk, -⟩ | ⟨-, e⟩
  · omega
  · omega
  · exact congrArg finish e

variable {nnn}

/-- A call that completes has found room for its entry. -/
theorem room_of_exec_callSubroutine (h : exec (.callSubroutine nnn) s = .next t) :
    ∃ j : Fin 16, s.sp.toNat = j.val := by
  have hne : s.sp.toNat ≠ 16 := fun h16 => nomatch (exec_callSubroutine_of_full nnn h16).symm.trans h
  have hle : ¬16 < s.sp.toNat := fun h16 => nomatch (exec_callSubroutine_of_unreachable nnn h16).symm.trans h
  exact ⟨⟨s.sp.toNat, by omega⟩, rfl⟩

/-- The return after a call that had room at `j` leaves the pushed entry and the advanced `pc`, and restores SP. -/
theorem exec_returnSubroutine_after_call (hj : s.sp.toNat = j.val) (h : exec (.callSubroutine nnn) s = .next t) :
    exec .returnSubroutine t = .next ((s.setStackEntry j (s.pc + 2)).setPc (s.pc + 2)) := by
  cases (exec_callSubroutine_of_room nnn hj).symm.trans h
  have hlive : (s.sp + 1).toNat = j.val + 1 := by bv_omega
  have htop : (s.setStackEntry j (s.pc + 2)).stackEntry j = s.pc + 2 := by
    rw [State.stackEntry_setStackEntry, if_pos rfl]
  refine (exec_returnSubroutine_of_live hlive).trans ?_
  rw [State.setPc_stackEntry, State.setSp_stackEntry, htop, State.setPc_sp, State.setSp_sp,
    BitVec.add_sub_cancel]
  rfl

end Sys2Proof.Machine
end

section
/-! The statements about control flow (spec/41_control_flow.md R130 to R137). -/

namespace Sys2Proof.Claims

open Sys2Proof.Machine

/-- Settles O17: the return leaves the state before the call but for the pushed entry and the advanced `pc`. -/
theorem returnUndoesCall : Obligations.ReturnUndoesCall := by
  intro nnn s t h
  obtain ⟨j, hj⟩ := room_of_exec_callSubroutine h
  refine ⟨_, exec_returnSubroutine_after_call hj h, BitVec.toNat_add s.pc 2,
    (frame_setStackEntry s rfl j _).trans (frame_setPc _ _), fun k hk => ?_⟩
  have hkj : k ≠ j := Fin.ne_of_val_ne (hj ▸ hk)
  rw [State.setPc_stackEntry, State.stackEntry_setStackEntry, if_neg hkj]

/-- Settles O11, by the three ranges of SP. -/
theorem returnPopsTheStack : Obligations.ReturnPopsTheStack := by
  refine ⟨decodes_of_encode rfl rfl, fun s => ⟨exec_returnSubroutine_of_empty, fun j hj => ?_,
    exec_returnSubroutine_of_unreachable⟩⟩
  have he := exec_returnSubroutine_of_live hj
  have hsp : (s.sp - 1).toNat = j.val := by bv_omega
  exact ⟨_, he, hsp, rfl, exec_frame he⟩

/-- Settles O12: a completed jump to 0xFFF stands where no fetch is possible. -/
theorem jumpToSetsPc : Obligations.JumpToSetsPc := by
  intro nnn s
  have hpc : (zextAddr nnn).toNat = nnn.toNat := zextAddr_toNat nnn
  refine ⟨decodes_of_encode rfl (formNnn_number ..), s.setPc (zextAddr nnn), rfl, hpc, frame_setPc s _, fun h => ?_⟩
  exact step_of_pc_out_of_range (by rw [State.setPc_pc, hpc, h]; decide)

/-- Settles O13, by the three ranges of SP. -/
theorem callPushesTheReturnAddress : Obligations.CallPushesTheReturnAddress := by
  intro nnn s
  refine ⟨decodes_of_encode rfl (formNnn_number ..), exec_callSubroutine_of_full nnn, fun j hj => ?_,
    exec_callSubroutine_of_unreachable nnn⟩
  have he := exec_callSubroutine_of_room nnn hj
  have hsp : (s.sp + 1).toNat = j.val + 1 := by bv_omega
  refine ⟨_, he, ?_, fun k hk => ?_, hsp, zextAddr_toNat nnn, exec_frame he⟩
  · rw [State.setPc_stackEntry, State.setSp_stackEntry, State.stackEntry_setStackEntry, if_pos rfl]
    exact BitVec.toNat_add s.pc 2
  · rw [State.setPc_stackEntry, State.setSp_stackEntry, State.stackEntry_setStackEntry, if_neg hk]

/-- Settles O14: both instructions are a directive alone. -/
theorem skipOnImmediate : Obligations.SkipOnImmediate := fun _ _ _ =>
  ⟨decodes_of_encode rfl (formXkk_number ..), skipsExactlyWhen_of_skipIf rfl beq_iff_eq,
    decodes_of_encode rfl (formXkk_number ..), skipsExactlyWhen_of_skipIf rfl bne_iff_ne⟩

/-- Settles O15: both instructions are a directive alone, and another last nibble is invalid. -/
theorem skipOnRegisters : Obligations.SkipOnRegisters := fun _ _ _ =>
  ⟨decodes_of_encode rfl (formXyn_number ..), skipsExactlyWhen_of_skipIf rfl beq_iff_eq,
    decodes_of_encode rfl (formXyn_number ..), skipsExactlyWhen_of_skipIf rfl bne_iff_ne,
    fun _ i _ _ => ⟨not_decodes_of_lastNibble (.inl (by omega)) (by omega) i,
      not_decodes_of_lastNibble (.inr (by omega)) (by omega) i⟩⟩

/-- Settles O16: the sum of a byte and a 12-bit address is no wrap. -/
theorem jumpWithOffsetAddsV0 : Obligations.JumpWithOffsetAddsV0 := by
  intro nnn s
  have hpc : (zextByte (s.reg 0) + zextAddr nnn).toNat = (s.reg 0).toNat + nnn.toNat := by
    rw [BitVec.toNat_add, zextByte_toNat, zextAddr_toNat]
    omega
  exact ⟨decodes_of_encode rfl (formNnn_number ..), s.setPc _, rfl, hpc, frame_setPc s _⟩

end Sys2Proof.Claims
end

section
/-! SUPPORT. The results of the register and arithmetic instructions as numbers (spec/42_alu.md R157 to R161), and what
such an instruction completes with: one register written, or the flag and then one register (R150). -/

namespace Sys2Proof.Machine

/-! ### Results and flags -/

theorem flagByte_carryOut (a b : Byte) :
    (flagByte (carryOut a b)).toNat = if a.toNat + b.toNat > 255 then 1 else 0 := by
  simp only [flagByte_toNat, carryOut_eq, decide_eq_true_eq]

theorem flagByte_strictlyGreater (a b : Byte) :
    (flagByte (strictlyGreater a b)).toNat = if a.toNat > b.toNat then 1 else 0 := by
  simp only [flagByte_toNat, strictlyGreater, decide_eq_true_eq]

/-- The difference modulo 256, in the order of R158. -/
theorem byte_sub_toNat (a b : Byte) : (a - b).toNat = (a.toNat + 256 - b.toNat) % 256 := by
  have := b.isLt
  rw [BitVec.toNat_sub]
  omega

theorem byte_shiftRight_one_toNat (a : Byte) : (a >>> 1).toNat = a.toNat / 2 := BitVec.toNat_ushiftRight a 1

theorem byte_shiftLeft_one_toNat (a : Byte) : (a <<< 1).toNat = 2 * a.toNat % 256 := by
  rw [BitVec.toNat_shiftLeft, Nat.shiftLeft_eq, Nat.mul_comm]

/-! ### The flag and then the result (R150) -/

variable (s : State) (f : Bool) (x : RegIdx) (b : Byte)

theorem State.reg_setFlagThenReg_same : (s.setFlagThenReg f x b).reg x = b := State.reg_setReg_same ..

/-- With a destination other than F the flag remains. -/
theorem State.reg_setFlagThenReg_vf {x : RegIdx} (h : x ≠ 15) : (s.setFlagThenReg f x b).reg 15 = flagByte f := by
  rw [State.reg_setFlagThenReg, if_neg h.symm, if_pos rfl]

end Sys2Proof.Machine

namespace Sys2Proof.Claims

open Sys2Proof.Machine

variable {i : Instr} {s : State} {x : RegIdx} {b : Byte}

/-! ### Completion -/

/-- An instruction whose effect is one register write changes nothing else but `pc`. -/
theorem completes_of_setReg (h : exec i s = .next ((s.setReg x b).applyCursor .next)) :
    ∃ t, exec i s = .next t ∧ t.reg x = b ∧ NextPc s t ∧ Frame { regs := [x] } s t :=
  ⟨_, h, State.reg_setReg_same s x b, nextPc_applyCursor (s.setReg x b),
    (frame_setReg s (List.mem_singleton.2 rfl) b).trans (frame_applyCursor _ .next)⟩

/-- The same for a result whose bits are known one by one. -/
theorem completes_of_setReg_bits {bit : Nat → Bool} (h : exec i s = .next ((s.setReg x b).applyCursor .next))
    (hbit : ∀ k, b.getLsbD k = bit k) : ∃ t, exec i s = .next t ∧ NextPc s t ∧ Frame { regs := [x] } s t ∧
      ∀ k < 8, (t.reg x).getLsbD k = bit k := by
  obtain ⟨t, he, rfl, hpc, hframe⟩ := completes_of_setReg h
  exact ⟨t, he, hpc, hframe, fun k _ => hbit k⟩

/-- An instruction that writes the flag and then its result: with `x` = F the result remains. -/
theorem completes_of_setFlagThenReg {f : Bool} {result flag : Nat}
    (h : exec i s = .next ((s.setFlagThenReg f x b).applyCursor .next)) (hb : b.toNat = result)
    (hf : (flagByte f).toNat = flag) : ∃ t, exec i s = .next t ∧ (t.reg x).toNat = result ∧
      (x ≠ 15 → (t.reg 15).toNat = flag) ∧ NextPc s t ∧ Frame { regs := [x, 15] } s t := by
  have hframe : Frame { regs := [x, 15] } s (s.setFlagThenReg f x b) := frame_setFlagThenReg s (by simp) (by simp) f b
  refine ⟨_, h, ?_, fun hx => ?_, nextPc_applyCursor (s.setFlagThenReg f x b),
    hframe.trans (frame_applyCursor _ .next)⟩
  · exact (congrArg BitVec.toNat (State.reg_setFlagThenReg_same s f x b)).trans hb
  · exact (congrArg BitVec.toNat (State.reg_setFlagThenReg_vf s f b hx)).trans hf

/-! ### The words of the shifts, the ignored nibble included (30_encoding.md R89) -/

theorem decodes_of_decodeWord {w : Word} {n : Nat} (h : decodeWord w = .instr i) (hn : w.toNat = n) : Decodes n i := by
  subst hn
  rw [Decodes, BitVec.ofNat_toNat, BitVec.setWidth_eq]
  exact h

theorem decodes_shiftRight (x y : RegIdx) : Decodes (0x8006 + 0x100 * x.val + 0x10 * y.val) (.shiftRight x) :=
  have hw := formXyn_number 0x8 x y 0x6
  decodes_of_decodeWord (decodeWord_shiftRight _ x y hw) hw

theorem decodes_shiftLeft (x y : RegIdx) : Decodes (0x800E + 0x100 * x.val + 0x10 * y.val) (.shiftLeft x) :=
  have hw := formXyn_number 0x8 x y 0xE
  decodes_of_decodeWord (decodeWord_shiftLeft _ x y hw) hw

end Sys2Proof.Claims
end

section
/-! The statements about registers and arithmetic (spec/42_alu.md R151 to R162). -/

namespace Sys2Proof.Claims

open Sys2Proof.Machine

/-- Settles O19: the instruction is one register write. -/
theorem setRegisterWritesTheImmediate : Obligations.SetRegisterWritesTheImmediate := fun _ _ _ =>
  ⟨decodes_of_encode rfl (formXkk_number ..), completes_of_setReg rfl⟩

/-- Settles O20: the instruction is one register write, of the sum of bytes. -/
theorem addRegisterWrapsWithoutFlag : Obligations.AddRegisterWrapsWithoutFlag := by
  intro x kk s
  obtain ⟨t, he, hx, hpc, hframe⟩ := completes_of_setReg (i := .addRegister x kk) (s := s) rfl
  have hsum : (t.reg x).toNat = ((s.reg x).toNat + kk.toNat) % 256 := hx ▸ BitVec.toNat_add (s.reg x) kk
  exact ⟨decodes_of_encode rfl (formXkk_number ..), t, he, hsum, hpc, hframe⟩

/-- Settles O21: the instruction is one register write. -/
theorem copyRegisterCopiesYToX : Obligations.CopyRegisterCopiesYToX := fun _ _ _ =>
  ⟨decodes_of_encode rfl (formXyn_number ..), completes_of_setReg rfl⟩

/-- Settles O22: each of the three writes one register, whose bits are those of the word operation. -/
theorem logicOperationsBitByBit : Obligations.LogicOperationsBitByBit := fun _ _ _ =>
  ⟨⟨decodes_of_encode rfl (formXyn_number ..), completes_of_setReg_bits rfl fun _ => BitVec.getLsbD_or⟩,
    ⟨decodes_of_encode rfl (formXyn_number ..), completes_of_setReg_bits rfl fun _ => BitVec.getLsbD_and⟩,
    ⟨decodes_of_encode rfl (formXyn_number ..), completes_of_setReg_bits rfl fun _ => BitVec.getLsbD_xor⟩⟩

/-- Settles O23: the carry is the flag, written before the sum. -/
theorem addWithCarryLaw : Obligations.AddWithCarryLaw := fun _ _ _ =>
  ⟨decodes_of_encode rfl (formXyn_number ..),
    completes_of_setFlagThenReg rfl (BitVec.toNat_add ..) (flagByte_carryOut ..)⟩

/-- Settles O24: the strict comparison is the flag, written before the difference. -/
theorem subtractionLaws : Obligations.SubtractionLaws := fun _ _ _ =>
  ⟨⟨decodes_of_encode rfl (formXyn_number ..),
      completes_of_setFlagThenReg rfl (byte_sub_toNat ..) (flagByte_strictlyGreater ..)⟩,
    ⟨decodes_of_encode rfl (formXyn_number ..),
      completes_of_setFlagThenReg rfl (byte_sub_toNat ..) (flagByte_strictlyGreater ..)⟩⟩

/-- Settles O25: the bit shifted out is the flag, written before the shifted value. -/
theorem shiftLaws : Obligations.ShiftLaws := fun x y _ =>
  ⟨⟨decodes_shiftRight x y, completes_of_setFlagThenReg rfl (byte_shiftRight_one_toNat _) (flagByte_lowBit _)⟩,
    ⟨decodes_shiftLeft x y, completes_of_setFlagThenReg rfl (byte_shiftLeft_one_toNat _) (flagByte_highBit _)⟩⟩

/-- Settles O26: the byte is taken before it is counted, and masking it again changes nothing. -/
theorem randomAndMasksOneByte : Obligations.RandomAndMasksOneByte := by
  intro x kk s
  have he : exec (.randomAnd x kk) s = .next ((s.drawRandom.setReg x (s.randByte &&& kk)).applyCursor .next) := rfl
  have hx := State.reg_setReg_same s.drawRandom x (s.randByte &&& kk)
  refine ⟨decodes_of_encode rfl (formXkk_number ..), _, he, hx, ?_, rfl, nextPc_applyCursor s, exec_frame he⟩
  rw [State.applyCursor_next, State.setPc_reg, hx, BitVec.and_assoc, BitVec.and_self]

end Sys2Proof.Claims
end

section
/-! SUPPORT. What an instruction of the address register or of memory completes with: `I` written, or the effect behind
the range check (spec/20_memory.md R57, 43_index_memory.md R186). -/

namespace Sys2Proof.Machine

variable {i : Instr} {s u : State} {n : Nat}

/-! ### The range check in front of an effect (R57) -/

/-- An instruction whose bytes lie in memory up to `I + n` completes with its effect. -/
theorem exec_of_checkRange_fits (h : execute i s = checkRange s (n + 1) (complete u .next))
    (hfits : s.i.toNat + n ≤ 0xFFF) : exec i s = .next (u.applyCursor .next) := by
  rw [exec_eq_finish_execute, h, checkRange_of_fits s (n + 1) _ fun _ => hfits, finish_complete]

/-- An instruction with its highest address `I + n` above memory faults with that address. -/
theorem exec_of_checkRange_exceeds {e : Effect} (h : execute i s = checkRange s (n + 1) e)
    (hexceeds : 0xFFF < s.i.toNat + n) : exec i s = .fault (.memoryOutOfRange (s.i.toNat + n)) := by
  rw [exec_eq_finish_execute, h, checkRange_of_exceeds s (n + 1) e n.succ_pos hexceeds, finish_fault,
    Nat.add_sub_cancel]

/-! ### The three digits in memory (43_index_memory.md R183) -/

variable {b : Byte}

theorem storeDigits_read_hundreds (hfits : s.i.toNat + 2 ≤ 0xFFF) :
    ((storeDigits b s).mem.read s.i.toNat).toNat = b.toNat / 100 := by
  rw [storeDigits_read b s _ (by omega), if_pos rfl, hundredsDigit_toNat]

theorem storeDigits_read_tens (hfits : s.i.toNat + 2 ≤ 0xFFF) :
    ((storeDigits b s).mem.read (s.i.toNat + 1)).toNat = b.toNat / 10 % 10 := by
  rw [storeDigits_read b s _ (by omega), if_neg (by omega), if_pos rfl, tensDigit_toNat]

theorem storeDigits_read_ones (hfits : s.i.toNat + 2 ≤ 0xFFF) :
    ((storeDigits b s).mem.read (s.i.toNat + 2)).toNat = b.toNat % 10 := by
  rw [storeDigits_read b s _ (by omega), if_neg (by omega), if_neg (by omega), if_pos rfl, onesDigit_toNat]

end Sys2Proof.Machine

namespace Sys2Proof.Claims

open Sys2Proof.Machine

variable {i : Instr} {s u : State}

/-! ### Completion -/

/-- The directive Next after an effect that leaves `pc` alone. -/
theorem nextPc_applyCursor_of_pc_eq (h : u.pc = s.pc) : NextPc s (u.applyCursor .next) := by
  have hnext := nextPc_applyCursor u
  rwa [NextPc, h] at hnext

/-- An instruction whose effect is one write of `I` changes nothing else but `pc`. -/
theorem completes_of_setI {a : Word} {value : Nat} (h : exec i s = .next ((s.setI a).applyCursor .next))
    (ha : a.toNat = value) :
    ∃ t, exec i s = .next t ∧ t.i.toNat = value ∧ NextPc s t ∧ Frame { i := true } s t :=
  ⟨_, h, ha, nextPc_applyCursor s, (frame_setI s rfl a).trans (frame_applyCursor _ .next)⟩

end Sys2Proof.Claims
end

section
/-! The statements about the address register and memory (spec/43_index_memory.md R180 to R185). -/

namespace Sys2Proof.Claims

open Sys2Proof.Machine

/-- Settles O27: the instruction is one write of `I`. -/
theorem setAddressRegisterWritesNnn : Obligations.SetAddressRegisterWritesNnn := fun nnn _ =>
  ⟨decodes_of_encode rfl (formNnn_number ..), completes_of_setI rfl (zextAddr_toNat nnn)⟩

/-- Settles O28: the instruction is one write of `I`, of the sum of words. -/
theorem addToAddressRegisterWraps : Obligations.AddToAddressRegisterWraps := by
  intro x s
  have hsum : (s.i + zextByte (s.reg x)).toNat = (s.i.toNat + (s.reg x).toNat) % 65536 := by
    rw [BitVec.toNat_add, zextByte_toNat]
  exact ⟨decodes_of_encode rfl (formX_number ..), completes_of_setI rfl hsum⟩

/-- Settles O29: the instruction is one write of `I`, and five times a byte is no wrap. -/
theorem setAddressToGlyphMultipliesByFive : Obligations.SetAddressToGlyphMultipliesByFive := fun x s =>
  ⟨decodes_of_encode rfl (formX_number ..), completes_of_setI rfl (glyphAddress_toNat (s.reg x))⟩

/-- Settles O30: each digit is at the address of its own store, and no other byte changes. -/
theorem storeBCDStoresTheDigits : Obligations.StoreBCDStoresTheDigits := by
  intro x s
  refine ⟨decodes_of_encode rfl (formX_number ..), exec_of_checkRange_exceeds rfl, fun hfits => ?_⟩
  have he : exec (.storeBCD x) s = .next ((storeDigits (s.reg x) s).applyCursor .next) :=
    exec_of_checkRange_fits rfl hfits
  exact ⟨_, he, storeDigits_read_hundreds hfits, storeDigits_read_tens hfits, storeDigits_read_ones hfits,
    onlyStoredBytesChange _ _ _ he, nextPc_applyCursor_of_pc_eq (storeDigits_pc (s.reg x) s), exec_frame he⟩

/-- Settles O31: each register of the block is at its address, and no other byte changes. -/
theorem storeRegisterBlockStoresInOrder : Obligations.StoreRegisterBlockStoresInOrder := by
  intro x s
  refine ⟨decodes_of_encode rfl (formX_number ..), exec_of_checkRange_exceeds rfl, fun hfits => ?_⟩
  have he : exec (.storeRegisterBlock x) s = .next ((storeRegisters x s).applyCursor .next) :=
    exec_of_checkRange_fits rfl hfits
  exact ⟨_, he, fun _ => exec_storeRegisterBlock_read he, onlyStoredBytesChange _ _ _ he,
    nextPc_applyCursor_of_pc_eq (storeRegisters_pc x s), exec_frame he⟩

/-- Settles O32: the loads read memory, which none of them writes. -/
theorem loadRegisterBlockLoadsInOrder : Obligations.LoadRegisterBlockLoadsInOrder := by
  intro x s
  refine ⟨decodes_of_encode rfl (formX_number ..), exec_of_checkRange_exceeds rfl, fun hfits => ?_⟩
  have he : exec (.loadRegisterBlock x) s = .next ((loadRegisters x s).applyCursor .next) :=
    exec_of_checkRange_fits rfl hfits
  exact ⟨_, he, loadRegisters_reg x s, nextPc_applyCursor_of_pc_eq (loadRegisters_pc x s),
    exec_frame he⟩

end Sys2Proof.Claims
end

section
/-! SUPPORT. What a completed Draw did to the display and to VF, in the words of spec/44_display.md R201: the cells the
sprite's bits land on, and the collision. -/

namespace Sys2Proof.Claims

open Sys2Proof.Machine

/-! ### The word of Draw -/

/-- The last nibble of the word is the number of rows (30_encoding.md R82). -/
theorem decodes_draw {n : Nat} (hn : n < 16) (x y : RegIdx) :
    Decodes (0xD000 + 0x100 * x.val + 0x10 * y.val + n) (.draw x y n) := by
  have hop : (0xD : Nibble).toNat = 0xD := rfl
  have hrows : (BitVec.ofNat 4 n).toNat = n := (BitVec.toNat_ofNat n 4).trans (Nat.mod_eq_of_lt hn)
  refine decodes_of_encode (decide_eq_true hn) ((formXyn_number 0xD x y (BitVec.ofNat 4 n)).trans ?_)
  omega

/-! ### The cells of a sprite -/

theorem landsOn_iff {s : State} {x y : RegIdx} {r c : Nat} {row : DispRow} {col : DispCol} :
    LandsOn s x y r c row col ↔ row = displayRow (s.reg y) r ∧ col = displayCol (s.reg x) c :=
  and_congr (Fin.ext_iff (b := displayRow _ r)).symm (Fin.ext_iff (b := displayCol _ c)).symm

/-- Every bit lands on some cell: both coordinates wrap around. -/
theorem landsOn_display (s : State) (x y : RegIdx) (r c : Nat) :
    LandsOn s x y r c (displayRow (s.reg y) r) (displayCol (s.reg x) c) := ⟨rfl, rfl⟩

/-! ### Completion -/

/-- The state in which Draw has drawn its sprite: the coordinates are those before the reset of VF (42_alu.md R150). -/
def drawn (x y : RegIdx) (n : Nat) (s : State) : State := drawSprite (s.reg x) (s.reg y) n (s.setFlag false)

theorem execute_draw (x y : RegIdx) (n : Nat) (s : State) :
    execute (.draw x y n) s = checkRange s n (complete (drawn x y n s) .next) := rfl

variable {x y : RegIdx} {n : Nat} {s t : State}

/-- A Draw whose sprite lies in memory completes (20_memory.md R57). -/
theorem exec_draw_of_fits (h : 0 < n → s.i.toNat + (n - 1) ≤ 0xFFF) :
    exec (.draw x y n) s = .next ((drawn x y n s).applyCursor .next) := by
  rw [exec_eq_finish_execute, execute_draw, checkRange_of_fits s n _ h, finish_complete]

/-- A Draw completes only with its sprite in memory, and only with the sprite drawn. -/
theorem exec_draw_eq_next (h : exec (.draw x y n) s = .next t) :
    (0 < n → s.i.toNat + (n - 1) ≤ 0xFFF) ∧ t = (drawn x y n s).applyCursor .next := by
  obtain ⟨u, c, he, rfl⟩ := exec_eq_next h
  obtain ⟨hfits, hu⟩ := checkRange_eq_next he
  cases hu
  exact ⟨hfits, rfl⟩

theorem draw_nextPc (h : exec (.draw x y n) s = .next t) : NextPc s t := by
  obtain ⟨-, rfl⟩ := exec_draw_eq_next h
  exact nextPc_applyCursor_of_pc_eq (drawSprite_pc ..)

/-! ### The display after a Draw -/

/-- A cell a sprite bit lands on is exclusive-ored with the bit. -/
theorem draw_cell_of_landsOn (hn : n < 16) (h : exec (.draw x y n) s = .next t) {r c : Nat} (hr : r < n) (hc : c < 8)
    {row : DispRow} {col : DispCol} (hl : LandsOn s x y r c row col) :
    t.cell row col = (s.cell row col ^^ SpriteBitAt s r c) := by
  obtain ⟨-, rfl⟩ := exec_draw_eq_next h
  obtain ⟨rfl, rfl⟩ := landsOn_iff.1 hl
  exact drawSprite_cell_hit _ _ _ _ _ _ hr (by omega) hc

/-- A cell no sprite bit lands on stays. -/
theorem draw_cell_of_not_landsOn (h : exec (.draw x y n) s = .next t) {row : DispRow} {col : DispCol}
    (hl : ∀ r < n, ∀ c < 8, ¬LandsOn s x y r c row col) : t.cell row col = s.cell row col := by
  obtain ⟨-, rfl⟩ := exec_draw_eq_next h
  exact drawSprite_cell_miss _ _ _ _ _ _ fun r hr c hc hcell => hl r hr c hc (landsOn_iff.2 hcell)

/-! ### VF after a Draw -/

theorem collides_setFlag_iff : Collides (s.reg x) (s.reg y) n (s.setFlag false) ↔
    ∃ r < n, ∃ c < 8, ∃ row col, LandsOn s x y r c row col ∧ SpriteBitAt s r c = true ∧ s.cell row col = true := by
  constructor
  · rintro ⟨r, hr, c, hc, hbit, hcell⟩
    exact ⟨r, hr, c, hc, _, _, landsOn_display s x y r c, hbit, hcell⟩
  · rintro ⟨r, hr, c, hc, row, col, hl, hbit, hcell⟩
    obtain ⟨rfl, rfl⟩ := landsOn_iff.1 hl
    exact ⟨r, hr, c, hc, hbit, hcell⟩

/-- A set bit that meets a set cell sets VF. -/
theorem draw_vf_of_collision (hn : n < 16) (h : exec (.draw x y n) s = .next t)
    (hcollision : ∃ r < n, ∃ c < 8, ∃ row col, LandsOn s x y r c row col ∧ SpriteBitAt s r c = true ∧
      s.cell row col = true) : t.reg 15 = 1 := by
  obtain ⟨-, rfl⟩ := exec_draw_eq_next h
  obtain ⟨hset, -⟩ := drawSprite_vf_cases (s.reg x) (s.reg y) n (s.setFlag false) (by omega)
  exact hset (collides_setFlag_iff.2 hcollision)

/-- With every cell under a set bit clear, VF stays as it was reset. -/
theorem draw_vf_of_no_collision (hn : n < 16) (h : exec (.draw x y n) s = .next t)
    (hclear : ∀ r < n, ∀ c < 8, ∀ row col, LandsOn s x y r c row col → SpriteBitAt s r c = true →
      s.cell row col = false) : t.reg 15 = 0 := by
  obtain ⟨-, rfl⟩ := exec_draw_eq_next h
  have hno : ¬Collides (s.reg x) (s.reg y) n (s.setFlag false) := fun hcollides => by
    obtain ⟨r, hr, c, hc, row, col, hl, hbit, hcell⟩ := collides_setFlag_iff.1 hcollides
    exact Bool.false_ne_true ((hclear r hr c hc row col hl hbit).symm.trans hcell)
  obtain ⟨-, hreset⟩ := drawSprite_vf_cases (s.reg x) (s.reg y) n (s.setFlag false) (by omega)
  exact (hreset hno).trans (State.reg_setReg_same s vf _)

/-! ### The same Draw at the state a Draw leads to -/

/-- A Draw leaves the cells of the same Draw where they are, unless it takes a coordinate from VF. -/
theorem draw_landsOn_iff (hx : x ≠ 15) (hy : y ≠ 15) (h : exec (.draw x y n) s = .next t) {r c : Nat} {row : DispRow}
    {col : DispCol} : LandsOn t x y r c row col ↔ LandsOn s x y r c row col := by
  have hframe : Frame (footprint (.draw x y n)) s t := exec_frame h
  rw [LandsOn, LandsOn, hframe.reg_eq (mt List.mem_singleton.1 hx), hframe.reg_eq (mt List.mem_singleton.1 hy)]

/-- A Draw leaves `I` and memory, from which the sprite is read. -/
theorem draw_spriteBitAt (h : exec (.draw x y n) s = .next t) (r c : Nat) : SpriteBitAt t r c = SpriteBitAt s r c := by
  obtain ⟨-, rfl⟩ := exec_draw_eq_next h
  simp [SpriteBitAt, drawn]

theorem draw_i (h : exec (.draw x y n) s = .next t) : t.i = s.i := by
  obtain ⟨-, rfl⟩ := exec_draw_eq_next h
  simp [drawn]

/-- Exclusive-oring twice with the same bits restores every cell (R202). -/
theorem draw_twice_cell {u : State} (hx : x ≠ 15) (hy : y ≠ 15) (hn : n < 16) (h : exec (.draw x y n) s = .next t)
    (h' : exec (.draw x y n) t = .next u) (row : DispRow) (col : DispCol) : u.cell row col = s.cell row col := by
  by_cases hhit : ∃ r < n, ∃ c < 8, LandsOn s x y r c row col
  · obtain ⟨r, hr, c, hc, hl⟩ := hhit
    calc u.cell row col
        = (t.cell row col ^^ SpriteBitAt t r c) := draw_cell_of_landsOn hn h' hr hc ((draw_landsOn_iff hx hy h).2 hl)
      _ = ((s.cell row col ^^ SpriteBitAt s r c) ^^ SpriteBitAt s r c) := by
        rw [draw_spriteBitAt h, draw_cell_of_landsOn hn h hr hc hl]
      _ = s.cell row col := by rw [Bool.xor_assoc, Bool.xor_self, Bool.xor_false]
  · have hmiss : ∀ r < n, ∀ c < 8, ¬LandsOn s x y r c row col :=
      fun r hr c hc hl => hhit ⟨r, hr, c, hc, hl⟩
    rw [draw_cell_of_not_landsOn h' fun r hr c hc => mt (draw_landsOn_iff hx hy h).1 (hmiss r hr c hc),
      draw_cell_of_not_landsOn h hmiss]

/-! ### The display in the frame -/

theorem Frame.disp_eq {c : Changed} (h : Frame c s t) (hc : c.display = false) : t.disp = s.disp := by
  obtain ⟨-, -, -, -, -, -, -, hdisp, -⟩ := h
  exact Vector.ext fun row hrow => Vector.ext fun col hcol => hdisp hc ⟨row, hrow⟩ ⟨col, hcol⟩

/-- Only Clear and Draw have the display in their footprint (44_display.md R203). -/
theorem footprint_display_eq_false {i : Instr} (hclear : i ≠ .clear) (hdraw : ∀ x y n, i ≠ .draw x y n) :
    (footprint i).display = false := by
  cases i with
  | clear => exact absurd rfl hclear
  | draw x y n => exact absurd rfl (hdraw x y n)
  | _ => rfl

theorem performKey_disp (s : State) (k : Nat) (down : Bool) : (performKey s k down).1.disp = s.disp := by
  rcases performKey_cases s k down with ⟨-, e⟩ | ⟨j, -, e⟩ <;> rw [e]
  exact State.setKey_disp s j down

end Sys2Proof.Claims
end

section
/-! The statements about the display (spec/44_display.md R200 to R203). -/

namespace Sys2Proof.Claims

open Sys2Proof.Machine

/-- Settles O36: each sprite bit has a cell of its own, so the loops are one exclusive or per cell. -/
theorem drawXorsTheSprite : Obligations.DrawXorsTheSprite := by
  intro x y n s hn hfits
  have he : exec (.draw x y n) s = .next ((drawn x y n s).applyCursor .next) := exec_draw_of_fits hfits
  exact ⟨_, he, fun _ hr _ hc _ _ => draw_cell_of_landsOn hn he hr hc, fun _ _ => draw_cell_of_not_landsOn he,
    draw_vf_of_collision hn he, draw_vf_of_no_collision hn he, draw_nextPc he, exec_frame he⟩

/-- Settles O38: the second Draw exclusive-ors the same cells with the same bits, and finds set what the first has set
under a set bit. -/
theorem drawTwiceRestoresTheDisplay : Obligations.DrawTwiceRestoresTheDisplay := by
  intro x y n s t hx hy hn h
  obtain ⟨hfits, -⟩ := exec_draw_eq_next h
  have h' : exec (.draw x y n) t = .next ((drawn x y n t).applyCursor .next) :=
    exec_draw_of_fits (draw_i h ▸ hfits)
  refine ⟨_, h', draw_twice_cell hx hy hn h h', fun hclear ⟨r, hr, c, hc, hbit⟩ => ?_⟩
  have hl : LandsOn s x y r c (displayRow (s.reg y) r) (displayCol (s.reg x) c) := landsOn_display s x y r c
  have hset : t.cell (displayRow (s.reg y) r) (displayCol (s.reg x) c) = true := by
    rw [draw_cell_of_landsOn hn h hr hc hl, hclear r hr c hc _ _ hl hbit, hbit, Bool.false_xor]
  exact draw_vf_of_collision hn h'
    ⟨r, hr, c, hc, _, _, (draw_landsOn_iff hx hy h).2 hl, (draw_spriteBitAt h r c).trans hbit, hset⟩

/-- Settles O47: the footprint for instructions, and the moves one by one. -/
theorem onlyClearAndDrawWriteTheDisplay : Obligations.OnlyClearAndDrawWriteTheDisplay := by
  refine ⟨fun i s t h hclear hdraw => (exec_frame h).disp_eq (footprint_display_eq_false hclear hdraw),
    fun op s hreset hstep => ?_, fun _ => State.cell_reset, fun _ => ⟨_, rfl, rfl⟩⟩
  cases op with
  | reset => exact absurd rfl hreset
  | step => exact absurd rfl hstep
  | keyDown k => exact performKey_disp s k true
  | keyUp k => exact performKey_disp s k false
  | load | tickTimers | snapshot => rfl

/-- Settles O35: the instruction is one clearing of the display. -/
theorem clearEmptiesTheDisplay : Obligations.ClearEmptiesTheDisplay := by
  refine ⟨decodes_of_encode rfl rfl, fun s => ?_⟩
  have he : exec .clear s = .next (s.clearDisplay.applyCursor .next) := rfl
  exact ⟨_, he, State.cell_clearDisplay s, nextPc_applyCursor s.clearDisplay, exec_frame he⟩

/-- Settles O37: the range check comes before the drawing, and the sprite without a row is the reset of VF alone. -/
theorem drawRangeCheck : Obligations.DrawRangeCheck := by
  intro x y n s hn
  refine ⟨decodes_draw hn x y, fun hpos hexceeds => ?_, ?_⟩
  · obtain ⟨m, rfl⟩ := Nat.exists_eq_succ_of_ne_zero hpos.ne'
    exact exec_of_checkRange_exceeds (execute_draw ..) hexceeds
  · rintro rfl
    have he : exec (.draw x y 0) s = .next ((s.setFlag false).applyCursor .next) :=
      exec_draw_of_fits fun hpos => absurd hpos (Nat.lt_irrefl 0)
    exact ⟨_, he, State.reg_setReg_same s vf _, draw_nextPc he,
      (frame_setFlag s (List.mem_singleton.2 rfl) false).trans (frame_applyCursor _ .next)⟩

end Sys2Proof.Claims
end

section
/-! SUPPORT. What the key and timer instructions complete with: the key test as a condition on the index, BlockForKey
for each state of the keypad, and one timer written (spec/45_keypad_timers.md R210 to R215). -/

namespace Sys2Proof.Machine

variable {s : State} {k : KeyIdx}

/-! ### Key indices -/

/-- A key index is a byte, so it is stored as it is. -/
theorem keyByte_toNat (k : KeyIdx) : (keyByte k).toNat = k.val :=
  (BitVec.toNat_ofNat k.val 8).trans (Nat.mod_eq_of_lt (by omega))

theorem State.not_keyDownAt_iff (s : State) (a : Byte) :
    (!s.keyDownAt a) = true ↔ ¬∃ k : KeyIdx, k.val = a.toNat ∧ s.keyState k = true := by
  rw [Bool.not_eq_true', ← Bool.not_eq_true, s.keyDownAt_iff a]

/-! ### BlockForKey (R212) -/

theorem exec_blockForKey_of_noKeyDown (x : RegIdx) (h : ∀ k, s.keyState k = false) :
    exec (.blockForKey x) s = .next s := by
  have hrun : runBlockForKey x s = complete s .stay := by rw [runBlockForKey, s.lowestKeyDown_none.2 h]
  exact congrArg finish hrun

theorem exec_blockForKey_of_lowest (x : RegIdx) (hk : s.keyState k = true)
    (hlow : ∀ j, j < k → s.keyState j = false) :
    exec (.blockForKey x) s = .next ((s.setReg x (keyByte k)).applyCursor .next) := by
  have hrun : runBlockForKey x s = complete (s.setReg x (keyByte k)) .next := by
    rw [runBlockForKey, (s.lowestKeyDown_some k).2 ⟨hk, hlow⟩]
  exact congrArg finish hrun

end Sys2Proof.Machine

namespace Sys2Proof.Claims

open Sys2Proof.Machine

variable {i : Instr} {s : State} {b : Byte}

/-! ### Completion -/

/-- An instruction whose effect is one write of DT changes nothing else but `pc`. -/
theorem completes_of_setDt (h : exec i s = .next ((s.setDt b).applyCursor .next)) :
    ∃ t, exec i s = .next t ∧ t.dt = b ∧ NextPc s t ∧ Frame { dt := true } s t :=
  ⟨_, h, State.setDt_dt s b, nextPc_applyCursor s, (frame_setDt s rfl b).trans (frame_applyCursor _ .next)⟩

/-- An instruction whose effect is one write of ST changes nothing else but `pc`. -/
theorem completes_of_setSt (h : exec i s = .next ((s.setSt b).applyCursor .next)) :
    ∃ t, exec i s = .next t ∧ t.st = b ∧ NextPc s t ∧ Frame { st := true } s t :=
  ⟨_, h, State.setSt_st s b, nextPc_applyCursor s, (frame_setSt s rfl b).trans (frame_applyCursor _ .next)⟩

end Sys2Proof.Claims
end

section
/-! The statements about the keypad and the timers (spec/45_keypad_timers.md R210 to R215). -/

namespace Sys2Proof.Claims

open Sys2Proof.Machine

/-- Settles O39: both instructions are a directive alone, on the key test and on its negation. -/
theorem keySkips : Obligations.KeySkips := fun x s =>
  ⟨decodes_of_encode rfl (formX_number ..), skipsExactlyWhen_of_skipIf rfl (s.keyDownAt_iff (s.reg x)),
    decodes_of_encode rfl (formX_number ..), skipsExactlyWhen_of_skipIf rfl (s.not_keyDownAt_iff (s.reg x))⟩

/-- Settles O40: with a least key down the instruction is one register write, with none it is Stay. -/
theorem blockForKeyTakesTheLowestKey : Obligations.BlockForKeyTakesTheLowestKey := by
  intro x s
  refine ⟨decodes_of_encode rfl (formX_number ..), exec_blockForKey_of_noKeyDown x, fun k hk hlow => ?_⟩
  obtain ⟨t, he, hx, hpc, hframe⟩ := completes_of_setReg (exec_blockForKey_of_lowest x hk hlow)
  have hindex : (t.reg x).toNat = k.val := hx ▸ keyByte_toNat k
  exact ⟨t, he, hindex, hpc, hframe⟩

/-- Settles O41: the instruction is one register write. -/
theorem readDelayTimerCopiesDT : Obligations.ReadDelayTimerCopiesDT := fun _ _ =>
  ⟨decodes_of_encode rfl (formX_number ..), completes_of_setReg rfl⟩

/-- Settles O42: each of the two is one write of its timer. -/
theorem timerWritesCopyTheRegister : Obligations.TimerWritesCopyTheRegister := fun _ _ =>
  ⟨⟨decodes_of_encode rfl (formX_number ..), completes_of_setDt rfl⟩,
    ⟨decodes_of_encode rfl (formX_number ..), completes_of_setSt rfl⟩⟩

end Sys2Proof.Claims
end

section
/-! SUPPORT. The faults (spec/60_exceptions.md R230 to R235): when each instruction that can fault does so and with
what, and the fault of a step at a word that decodes to no instruction, with the nibbles it records. -/

namespace Sys2Proof

/-! ### The recorded nibbles (R231) -/

/-- The four nibbles of the word of two bytes are the halves of each (20_memory.md R50, 30_encoding.md R81). -/
theorem invalidOf_wordOfBytes (hi lo : Byte) : invalidOf (wordOfBytes hi lo) =
    .invalid (BitVec.ofNat 4 (hi.toNat / 16)) (BitVec.ofNat 4 (hi.toNat % 16))
      (BitVec.ofNat 4 (lo.toNat / 16)) (BitVec.ofNat 4 (lo.toNat % 16)) := by
  have hw := wordOfBytes_toNat hi lo
  have hlo := lo.isLt
  rw [invalidOf]
  congr 1 <;> apply BitVec.eq_of_toNat_eq
  · rw [nibble0_toNat, BitVec.toNat_ofNat]; omega
  · rw [nibble1_toNat, BitVec.toNat_ofNat]; omega
  · rw [nibble2_toNat, BitVec.toNat_ofNat]; omega
  · rw [nibble3_toNat, BitVec.toNat_ofNat]; omega

end Sys2Proof

namespace Sys2Proof.Machine

variable {s : State} {f : Fault}

/-- A step at a word that decodes to no instruction faults with the nibbles the decoder reports (R231, R239). -/
theorem step_of_invalid {n0 n1 n2 n3 : Nibble} (hpc : s.pc.toNat ≤ 0xFFE)
    (h : decodeWord s.wordAtPc = .invalid n0 n1 n2 n3) : step s = .fault (.decodeFailure n0 n1 n2 n3) := by
  rcases step_cases s with ⟨hhigh, -⟩ | ⟨-, _, _, _, _, hd, e⟩ | ⟨-, i, hd, -⟩
  · omega
  · cases hd.symm.trans h
    exact e
  · cases hd.symm.trans h

/-! ### The faults of each instruction -/

/-- The return faults exactly on the empty stack (R233). -/
theorem execute_returnSubroutine_eq_fault_iff :
    execute .returnSubroutine s = .fault f ↔ s.sp.toNat = 0 ∧ f = .stackUnderflow := by
  rw [execute]
  rcases runReturnSubroutine_cases s with ⟨h, e⟩ | ⟨j, h, e⟩ | ⟨h, e⟩
  · simp [e, h, eq_comm]
  · simp [e, h]
  · simp [e, Nat.ne_zero_of_lt h]

/-- The call faults exactly on the full stack (R232). -/
theorem execute_callSubroutine_eq_fault_iff {nnn : Addr12} :
    execute (.callSubroutine nnn) s = .fault f ↔ s.sp.toNat = 16 ∧ f = .stackOverflow := by
  rw [execute]
  rcases runCallSubroutine_cases nnn s with ⟨h, e⟩ | ⟨j, h, e⟩ | ⟨h, e⟩
  · simp [e, h, eq_comm]
  · simp [e, h, j.isLt.ne]
  · simp [e, h.ne']

/-- A completing effect behind the range check faults exactly when the check fails, with the highest address (R235,
20_memory.md R57). -/
theorem checkRange_complete_eq_fault_iff {n : Nat} {u : State} {c : Cursor} :
    checkRange s n (complete u c) = .fault f ↔
      0 < n ∧ 0xFFF < s.i.toNat + (n - 1) ∧ f = .memoryOutOfRange (s.i.toNat + (n - 1)) := by
  rcases checkRange_cases s n (complete u c) with ⟨hn, hhigh, e⟩ | ⟨hfits, e⟩
  · simp [e, hn, hhigh, eq_comm]
  · rw [e]
    exact ⟨nofun, fun ⟨hn, hhigh, _⟩ => absurd (hfits hn) (Nat.not_le_of_lt hhigh)⟩

theorem execute_blockForKey_ne_fault (x : RegIdx) : execute (.blockForKey x) s ≠ .fault f := by
  rw [execute]
  rcases runBlockForKey_cases x s with ⟨-, e⟩ | ⟨k, -, e⟩ <;> simp [e]

end Sys2Proof.Machine
end

section
/-! SUPPORT. The host's key operations, its tick and the memory image it reads (spec/60_exceptions.md R246 to R250). -/

namespace Sys2Proof.Machine

theorem perform_key (s : State) (k : Nat) (down : Bool) :
    perform (if down then .keyDown k else .keyUp k) s = performKey s k down := by
  cases down <;> rfl

theorem performKey_of_gt (s : State) {k : Nat} (down : Bool) (h : 15 < k) :
    performKey s k down = (s, .keyError (.outOfRangeKeyIndex k)) := by
  rcases performKey_cases s k down with ⟨-, e⟩ | ⟨j, rfl, -⟩
  · exact e
  · omega

theorem performKey_keyIdx (s : State) (j : KeyIdx) (down : Bool) :
    performKey s j.val down = (s.setKey j down, .ok) := by
  rcases performKey_cases s j.val down with ⟨h, -⟩ | ⟨k, hk, e⟩
  · omega
  · rw [e, Fin.ext hk]

/-- Natural subtraction is the floor at 0 (R248). -/
theorem tick_toNat (b : Byte) : (tick b).toNat = b.toNat - 1 := by
  unfold tick
  split
  case isTrue h => rw [h]; rfl
  case isFalse h => bv_omega

theorem State.snapshot_memory (s : State) : s.snapshot.memory = s.mem.image := by rw [State.snapshot]

theorem Memory.length_image (m : Memory) : m.image.length = 4096 := by
  rw [Memory.image, List.length_map, List.length_range]

theorem Memory.getElem?_image (m : Memory) {a : Nat} (h : a < 4096) : m.image[a]? = some (m.read a) := by
  rw [Memory.image, List.getElem?_map, List.getElem?_range h]; rfl

end Sys2Proof.Machine
end

section
/-! The statements about the faults and the host's operations (spec/60_exceptions.md R230 to R250). -/

namespace Sys2Proof.Claims

open Sys2Proof.Machine

/-- Settles O60: a completed step by the addresses it can have been fetched from, any other move by what it writes. -/
theorem hostMovesKeepTheInvariant : Obligations.HostMovesKeepTheInvariant := fun op _ hs => hs.perform op

/-- Settles O43: the return and the call by the cases of SP, four instructions by the range check in front of them;
the others complete in every state. -/
theorem faultsAreExactlyThoseListed : Obligations.FaultsAreExactlyThoseListed := by
  intro i s f
  rw [exec_eq_finish_execute, finish_eq_fault]
  cases i with
  | returnSubroutine => simp [execute_returnSubroutine_eq_fault_iff]
  | callSubroutine nnn => simp [execute_callSubroutine_eq_fault_iff]
  | draw | storeBCD | storeRegisterBlock | loadRegisterBlock => exact checkRange_complete_eq_fault_iff.trans (by simp)
  | blockForKey x => simp [execute_blockForKey_ne_fault]
  | _ => exact ⟨nofun, by simp⟩

/-- Settles O7: the fetch comes first; a word that no row covers is reported by its nibbles. -/
theorem stepFaultsBeforeExecution : Obligations.StepFaultsBeforeExecution := by
  intro s
  refine ⟨step_of_pc_out_of_range, ?_⟩
  rintro _ _ hpc rfl rfl hrows
  exact step_of_invalid hpc ((decodeWord_of_noRow hrows).trans (invalidOf_wordOfBytes _ _))

/-- Settles O57, from the two cases of a key operation. -/
theorem keyOperationsWriteOneKey : Obligations.KeyOperationsWriteOneKey := by
  intro s k down
  rw [perform_key]
  refine ⟨performKey_of_gt s down, ?_⟩
  rintro j rfl
  refine ⟨s.setKey j down, performKey_keyIdx s j down, ?_, fun l hl => ?_, rfl⟩
  · rw [State.keyState_setKey, if_pos rfl]
  · rw [State.keyState_setKey, if_neg hl]

/-- Settles O58: the tick writes the two timers alone. -/
theorem tickDecrementsBothTimers : Obligations.TickDecrementsBothTimers := fun s =>
  ⟨s.tickTimers, rfl, tick_toNat s.dt, tick_toNat s.st, rfl⟩

/-- Settles O59: every part of the snapshot but the memory image is the state's own field. -/
theorem snapshotShowsTheListedSurface : Obligations.SnapshotShowsTheListedSurface := by
  intro s
  refine ⟨s.snapshot, rfl, ?_, fun a ha => ?_, rfl, rfl, rfl, rfl⟩
  · rw [State.snapshot_memory, Memory.length_image]
  · rw [State.snapshot_memory, Memory.getElem?_image s.mem ha]

end Sys2Proof.Claims
end

section
/-! Loading a program (spec/70_reset_and_hazards.md R271 to R274): the two parts of memory after `load`, its frame, and
the first fetch of a launch. -/

namespace Sys2Proof.Machine

/-! ### Memory after a load -/

/-- Below 0x200 no byte of the program is listed and every earlier entry stays (R274). -/
theorem Memory.read_load_below (m : Memory) (program : List Byte) {a : Nat} (h : a < 0x200) :
    (m.load program).read a = m.read a := by
  have hprogram : Memory.lookup (Memory.cellsFrom Config.progBase (program.take Config.progSize)) a = none := by
    refine Memory.lookup_eq_none _ a fun c hc => ?_
    obtain ⟨hbase, -⟩ := Memory.mem_cellsFrom hc
    exact (Nat.lt_of_lt_of_le h hbase).ne'
  have hkept := Memory.lookup_filter m.cells (fun b => decide (b < Config.progBase)) a
  rw [if_pos (decide_eq_true h)] at hkept
  simp only [Memory.read, Memory.load, Memory.lookup_append, hkept, hprogram, Option.or_none]

/-- From 0x200 on every earlier entry is dropped, so a byte is the program's, or the reset byte 0 past its end
(R274). -/
theorem Memory.read_load_program (m : Memory) (program : List Byte) {k : Nat} (h : k < 3584) :
    (m.load program).read (0x200 + k) = program[k]?.getD 0 := by
  have hdropped := Memory.lookup_filter m.cells (fun b => decide (b < Config.progBase)) (0x200 + k)
  rw [if_neg (by simp)] at hdropped
  have hreset : resetByte (0x200 + k) = 0 := Memory.read_reset_zero (by omega)
  have hprogram := Memory.lookup_cellsFrom (program.take Config.progSize) 0x200 k
  rw [List.getElem?_take_of_lt h, hreset] at hprogram
  simpa only [Memory.read, Memory.load, Memory.lookup_append, hdropped, Option.none_or, hreset] using hprogram

/-! ### The first step -/

/-- A launched program starts at its first word (R271, R273). -/
theorem step_launch {hi lo : Byte} {i : Instr} (rest : List Byte) (h : decodeBytes [hi, lo] = .ok (i, [])) :
    step (launch (hi :: lo :: rest)) = exec i (launch (hi :: lo :: rest)) := by
  have hhi : (launch (hi :: lo :: rest)).mem.read 0x200 = hi :=
    State.reset.mem.read_load_program (hi :: lo :: rest) (k := 0) (by decide)
  have hlo : (launch (hi :: lo :: rest)).mem.read 0x201 = lo :=
    State.reset.mem.read_load_program (hi :: lo :: rest) (k := 1) (by decide)
  have hpc : (launch (hi :: lo :: rest)).pc.toNat = 0x200 := rfl
  refine step_of_decodeBytes (by rw [hpc]; decide) ?_
  rw [hpc, hhi, hlo]
  exact h

end Sys2Proof.Machine

namespace Sys2Proof.Claims

open Sys2Proof.Machine

theorem frame_loadProgram {c : Changed} (s : State) (h : c.mem = true) (program : List Byte) :
    Frame c s (s.loadProgram program) := by simp [Frame, h]

/-- Settles O56: the two parts of memory and the frame of `load`, and the fetch at 0x200. -/
theorem loadCopiesAndZeroFills : Obligations.LoadCopiesAndZeroFills :=
  ⟨fun s program => ⟨s.loadProgram program, rfl, fun _ => s.mem.read_load_below program,
      fun _ => s.mem.read_load_program program, rfl, frame_loadProgram s rfl program⟩,
    fun _ _ => rfl, fun _ _ rest _ => step_launch rest⟩

end Sys2Proof.Claims
end
